-- ==== Sys2Proof/Word.lean ====
section
/-! DEFINITION. The word and byte types of the engine (spec/00_scope.md rules R8, R9). The numbers that R9 fixes
stand as numerals, as the spec's own pseudocode has them: 32768 words of memory, arithmetic modulo 32768, operand words from
32768 for registers and from 32776 on invalid. -/

namespace Sys2Proof

/-- A word: 16 bits, unsigned (00_scope.md R8). -/
abbrev Word := BitVec 16

/-- A byte: eight bits; bytes occur in a program image and in the output stream only (20_memory.md R50). -/
abbrev Byte := BitVec 8

end Sys2Proof
end

