-- ==== Sys2Proof/Config.lean ====
section
/-! DEFINITION. The parameters of the model (spec/00_scope.md rule R10). State carries one value of them, which no step
changes, so that a statement about every state is a statement about every parameter value (log 3). -/

namespace Sys2Proof

/-- AND_OR_WIDE: what `and` and `or` do with bit 15 (00_scope.md R10, decision D16). -/
inductive AndOrWide where
  /-- The 16-bit bitwise result is kept. -/
  | raw16
  /-- The result is masked to 15 bits. -/
  | mask15
deriving DecidableEq, Repr

/-- The three parameters of R10; `none` is `unbounded`. -/
structure Params where
  /-- STACK_CAPACITY (decision D12). -/
  stackCapacity : Option Nat
  /-- INPUT_QUEUE_CAPACITY (decision D13). -/
  inputQueueCapacity : Option Nat
  /-- AND_OR_WIDE (decision D16). -/
  andOrWide : AndOrWide
deriving DecidableEq, Repr

/-- The reference values of R10. -/
def Params.reference : Params :=
  { stackCapacity := none, inputQueueCapacity := none, andOrWide := .raw16 }

end Sys2Proof
end

