-- ==== Sys2Proof/Machine/State.lean ====
section
/-! DEFINITION. The state of the engine (spec/10_state.md rule R16), the reasons a step can stop, and the state after
reset (R39). State is plain data. -/

namespace Sys2Proof.Machine

/-- The memory: (address, word) pairs, addresses strictly rising, no entry 0; an unlisted address reads 0
(20_memory.md R40, R41; log 1). -/
abbrev Memory := List (Nat × Word)

/-- The fault causes held in STATUS.CAUSE (60_exceptions.md R116), in the order of their codes 0 to 6. -/
inductive Cause where
  | none
  | invalidOpcode
  | invalidOperand
  | stackUnderflow
  | divideByZero
  | addressRange
  | stackOverflow
deriving DecidableEq, Repr

/-- The engine state (10_state.md R26), in the order of its codes 0 to 3 in STATUS.STATE (R27). -/
inductive EngineState where
  | running
  | suspended
  | halted
  | faulted
deriving DecidableEq, Repr

/-- STATUS by its fields (10_state.md R27); its 16-bit word is `statusWord` in Ops.lean (log 8). -/
structure Status where
  state : EngineState
  active : Bool
  cause : Cause
deriving DecidableEq, Repr

/-- A host transaction that changes the engine (60_exceptions.md R131 to R133). -/
inductive HostCmd where
  /-- LOAD(bytes): build a new engine from an image. -/
  | load (bytes : List Byte)
  /-- ENQ(w): append a word to the input queue. -/
  | enq (w : Word)
  /-- RUN: begin or resume a run. -/
  | run
deriving DecidableEq, Repr

/-- Everything the spec gives the engine (10_state.md R16), then two fields of the model's own. -/
structure State where
  /-- `mem`, 32768 words (20_memory.md R40). -/
  mem : Memory
  /-- `x[0..7]` (10_state.md R18). -/
  regs : Vector Word 8
  /-- The instruction pointer (10_state.md R23). -/
  pc : Word
  /-- The stack, its top first (10_state.md R30; log 9). -/
  stack : List Word
  /-- The status register (10_state.md R27). -/
  status : Status
  /-- The input queue, its oldest word first (10_state.md R35). -/
  inq : List Word
  /-- The output stream, its oldest byte first (10_state.md R37). -/
  outs : List Byte
  /-- The model's own: the parameters of 00_scope.md R10 (log 3). -/
  params : Params
  /-- The model's own: the host commands not yet issued, the next one first (10_state.md R17; log 5). -/
  host : List HostCmd
deriving DecidableEq, Repr

/-- The machine stops because no engine exists. Every fault of the ENGINE is a next state instead: Faulted, with its cause
in STATUS (60_exceptions.md R117; log 4). -/
inductive Fault where
  /-- Raised by a LOAD of an image with an odd byte count or more than 32768 words: no engine is constructed
  (60_exceptions.md R120). Safe: no state follows, so nothing can be claimed of one. -/
  | formatError
deriving DecidableEq, Repr

/-- The step has no meaning. -/
inductive Refusal where
  /-- An instruction without a meaning yet, refused by its mnemonic; no arm of exec raises it. Safe: no state follows. -/
  | notModelled (mnemonic : String)
  /-- A host command issued while ACTIVE = 1 has no move (60_exceptions.md R131, R133, R136). Raised by the host's turn in a
  state where the engine is not Running but ACTIVE is 1, which no run reaches. Safe: no state follows. -/
  | hostDuringRun
  /-- ENQ to a full finite input queue has no move (60_exceptions.md R131). Raised by the host's turn. Safe: no state follows;
  a host that broke its duty is not modelled (log 13). -/
  | inputQueueFull
deriving DecidableEq, Repr

/-- STATUS after construction (10_state.md R39). -/
def Status.reset : Status := { state := .running, active := false, cause := .none }

/-- The state after construction from an empty image (10_state.md R39, 20_memory.md R61): every value is the spec's. The two
fields of the model's own hold the reference parameters and no host command (log 3, log 5). -/
def State.reset : State :=
  { mem := []
    regs := Vector.replicate 8 0
    pc := 0
    stack := []
    status := Status.reset
    inq := []
    outs := []
    params := Params.reference
    host := [] }

/-- What a step or a meaning answers. -/
abbrev Result := Host.Outcome State Fault Refusal

end Sys2Proof.Machine
end

