-- ==== Sys2Proof/Machine/Ops.lean ====
section
/-! DEFINITION. The named operations over memory, registers, stack, queues and STATUS, and the one operation that takes a
fault. An operation that can raise a fault answers `.error cause`, and then nothing of the step is kept
(spec/30_encoding.md rule R86, spec/60_exceptions.md rule R118). -/

namespace Sys2Proof.Machine

/-! ### One field at a time -/

def State.setMem (s : State) (m : Memory) : State := { s with mem := m }
def State.setRegs (s : State) (x : Vector Word 8) : State := { s with regs := x }
def State.setPc (s : State) (p : Word) : State := { s with pc := p }
def State.setStack (s : State) (st : List Word) : State := { s with stack := st }
def State.setStatus (s : State) (x : Status) : State := { s with status := x }
def State.setInq (s : State) (q : List Word) : State := { s with inq := q }
def State.setOuts (s : State) (o : List Byte) : State := { s with outs := o }
def State.setHost (s : State) (h : List HostCmd) : State := { s with host := h }

/-! ### Memory -/

/-- The word at an address; an unlisted address reads 0 (20_memory.md R41). -/
def Memory.read : Memory → Nat → Word
  | [], _ => 0
  | (k, v) :: m, a => if k = a then v else Memory.read m a

/-- Put a cell at its place among rising addresses. -/
def Memory.insert (a : Nat) (v : Word) : Memory → Memory
  | [] => [(a, v)]
  | (k, u) :: m => if a < k then (a, v) :: (k, u) :: m else (k, u) :: Memory.insert a v m

/-- Write one word and keep the canonical form: a word that an unlisted address reads as is not listed. -/
def Memory.write (m : Memory) (a : Nat) (v : Word) : Memory :=
  let rest := m.filter fun c => c.1 != a
  if v = 0#16 then rest else Memory.insert a v rest

/-- Cells at rising addresses from `lo` on, inside the address space, none of them 0. -/
def Memory.wfFrom (lo : Nat) : Memory → Bool
  | [] => true
  | (k, v) :: m => decide (lo ≤ k) && decide (k < 32768) && decide (v ≠ 0#16) && Memory.wfFrom (k + 1) m

/-- The canonical form of the memory. -/
def Memory.wf (m : Memory) : Bool := Memory.wfFrom 0 m

/-- MemRead(addr, 1) (20_memory.md R48). -/
def memRead (a : Word) (s : State) : Except Cause Word :=
  if a.toNat < 32768 then .ok (s.mem.read a.toNat) else .error .addressRange

/-- MemWrite(addr, 1, v) (20_memory.md R49). -/
def memWrite (a v : Word) (s : State) : Except Cause State :=
  if a.toNat < 32768 then .ok (s.setMem (s.mem.write a.toNat v)) else .error .addressRange

/-! ### Registers (10_state.md R20) -/

def readReg (r : Fin 8) (s : State) : Word := s.regs.get r

def writeReg (r : Fin 8) (v : Word) (s : State) : State := s.setRegs (s.regs.set r v)

/-! ### The stack (10_state.md R30, R31) -/

/-- A finite STACK_CAPACITY is reached (10_state.md R30). -/
def stackFull (s : State) : Bool := s.params.stackCapacity == some s.stack.length

/-- Push(v), with the overflow of a full finite stack (41_move_stack.md R94). -/
def push (v : Word) (s : State) : Except Cause State :=
  if stackFull s then .error .stackOverflow else .ok (s.setStack (v :: s.stack))

/-- Pop(): the top and the state without it; none on an empty stack, where each instruction has its own rule. -/
def pop? (s : State) : Option (Word × State) :=
  match s.stack with
  | [] => none
  | v :: st => some (v, s.setStack st)

/-! ### Input queue and output stream (10_state.md R35 to R37) -/

/-- Dequeue(): the oldest word and the state without it; none when QueueEmpty(). -/
def dequeue? (s : State) : Option (Word × State) :=
  match s.inq with
  | [] => none
  | v :: q => some (v, s.setInq q)

/-- Append a word to the input queue. -/
def enqueue (w : Word) (s : State) : State := s.setInq (s.inq ++ [w])

/-- A finite INPUT_QUEUE_CAPACITY is reached (10_state.md R35). -/
def inputQueueFull (s : State) : Bool := s.params.inputQueueCapacity == some s.inq.length

/-- Emit(b). -/
def emit (b : Byte) (s : State) : State := s.setOuts (s.outs ++ [b])

/-! ### The program counter -/

/-- `pc <- pc + n` (10_state.md R24). -/
def advance (n : Nat) (s : State) : State := s.setPc (s.pc + BitVec.ofNat 16 n)

/-! ### STATUS -/

/-- The cause codes (60_exceptions.md R116). -/
def Cause.code : Cause → Nat
  | .none => 0
  | .invalidOpcode => 1
  | .invalidOperand => 2
  | .stackUnderflow => 3
  | .divideByZero => 4
  | .addressRange => 5
  | .stackOverflow => 6

/-- The codes of STATUS.STATE (10_state.md R27). -/
def EngineState.code : EngineState → Nat
  | .running => 0
  | .suspended => 1
  | .halted => 2
  | .faulted => 3

/-- The 16-bit STATUS word the host reads: reserved bits 0, CAUSE in [5:3], ACTIVE in [2], STATE in [1:0]
(10_state.md R27). -/
def statusWord (x : Status) : Word :=
  BitVec.ofNat 10 0 ++ (BitVec.ofNat 3 x.cause.code ++ (BitVec.ofBool x.active ++ BitVec.ofNat 2 x.state.code))

/-- A step may be taken (30_encoding.md R87). -/
def enabled (s : State) : Bool := decide (s.status.state = .running) && s.status.active

/-- TAKING A FAULT: STATE becomes Faulted, CAUSE the cause and ACTIVE 0; nothing else changes (60_exceptions.md R117, R118).
There is no way back from it (R119). -/
def raiseFault (c : Cause) (s : State) : State := s.setStatus { state := .faulted, active := false, cause := c }

/-- `enter Halted` (40_halt_noop.md R91). -/
def enterHalted (s : State) : State := s.setStatus { s.status with state := .halted, active := false }

/-- `enter Suspended` (47_io.md R114). -/
def enterSuspended (s : State) : State := s.setStatus { s.status with state := .suspended, active := false }

/-- Begin a run, or go back to Running from Suspended, the only return there is (60_exceptions.md R126, R133). -/
def beginRun (s : State) : State := s.setStatus { s.status with state := .running, active := true }

/-! ### Commit -/

/-- The end of a step that began in `s` (30_encoding.md R86): its writes, or its fault with none of them. -/
def commit (s : State) : Except Cause State → Result
  | .ok t => .next t
  | .error c => .next (raiseFault c s)

end Sys2Proof.Machine
end

