-- ==== Sys2Proof/Syntax.lean ====
section
/-! DEFINITION. The instruction set: one constructor of Instr per row of spec/opcode_table.json, in the table's order
(spec/30_encoding.md rule R71). -/

namespace Sys2Proof

/-- A value operand (30_encoding.md R66, R76): a literal word 0 to 32767, or a register. -/
inductive Src where
  | lit (w : Word)
  | reg (r : Fin 8)
deriving DecidableEq, Repr

/-- A target operand (30_encoding.md R66, R77): a memory address 0 to 32767, or a register. -/
inductive Dst where
  | mem (a : Word)
  | reg (r : Fin 8)
deriving DecidableEq, Repr

/-- The 22 instructions (30_encoding.md R71). `inp` is the row `in`, a name Lean keeps for itself. -/
inductive Instr where
  | halt
  | set (a : Dst) (b : Src)
  | push (a : Src)
  | pop (a : Dst)
  | eq (a : Dst) (b c : Src)
  | gt (a : Dst) (b c : Src)
  | jmp (a : Src)
  | jt (a b : Src)
  | jf (a b : Src)
  | add (a : Dst) (b c : Src)
  | mult (a : Dst) (b c : Src)
  | mod (a : Dst) (b c : Src)
  | and (a : Dst) (b c : Src)
  | or (a : Dst) (b c : Src)
  | not (a : Dst) (b : Src)
  | rmem (a : Dst) (b : Src)
  | wmem (a b : Src)
  | call (a : Src)
  | ret
  | out (a : Src)
  | inp (a : Dst)
  | noop
deriving DecidableEq, Repr

end Sys2Proof
end

