-- ==== Sys2Proof/Machine/Operands.lean ====
section
/-! DEFINITION. The operand resolver on decoded operands (spec/30_encoding.md rules R76 to R80): the two value forms and the
two target forms; rmem and wmem add the indirect memory form through memRead and memWrite. -/

namespace Sys2Proof.Machine

/-- ResolveValue (R76): a literal stands for itself, a register for its word, verbatim. -/
def resolveValue (a : Src) (s : State) : Word :=
  match a with
  | .lit w => w
  | .reg r => readReg r s

/-- The memory address a target names, if it names one (R77). -/
def targetAddress : Dst → Option Nat
  | .mem a => some a.toNat
  | .reg _ => none

/-- WriteTarget(t, v) (R78). The word in the slot names the destination itself, never through a register's value (R68). -/
def writeTarget (d : Dst) (v : Word) (s : State) : Except Cause State :=
  match d with
  | .mem a => memWrite a v s
  | .reg r => .ok (writeReg r v s)

/-- The shape `WriteTarget(t_a, v)` then `pc <- pc + n`. -/
def assign (d : Dst) (v : Word) (n : Nat) (s : State) : Except Cause State :=
  (writeTarget d v s).map (advance n)

end Sys2Proof.Machine
end

