-- ==== Sys2Proof/Machine/Alu.lean ====
section
/-! DEFINITION. Arithmetic and logic: add, mult, mod, and, or, not (spec/44_alu.md). Operands are unsigned 16-bit words, the
arithmetic is exact and then reduced (R107, R108). -/

namespace Sys2Proof.Machine

/-- The exact sum modulo 32768 (R101). -/
def aluAdd (b c : Word) : Word := BitVec.ofNat 16 ((b.toNat + c.toNat) % 32768)

/-- The exact product modulo 32768 (R102). -/
def aluMult (b c : Word) : Word := BitVec.ofNat 16 (b.toNat * c.toNat % 32768)

/-- The unsigned remainder, DIVIDE_BY_ZERO for a zero divisor (R103). -/
def aluMod (b c : Word) : Except Cause Word :=
  if c = 0#16 then .error .divideByZero else .ok (BitVec.ofNat 16 (b.toNat % c.toNat))

/-- What AND_OR_WIDE does to a result of `and` or `or` (R104, R105). -/
def maskWide (m : AndOrWide) (r : Word) : Word :=
  match m with
  | .raw16 => r
  | .mask15 => r &&& 0x7FFF#16

/-- R104. -/
def aluAnd (m : AndOrWide) (b c : Word) : Word := maskWide m (b &&& c)

/-- R105. -/
def aluOr (m : AndOrWide) (b c : Word) : Word := maskWide m (b ||| c)

/-- R106: NOT16, masked to 15 bits. -/
def aluNot (b : Word) : Word := (b ^^^ 0xFFFF#16) &&& 0x7FFF#16

/-- R101. -/
def execAdd (a : Dst) (b c : Src) (s : State) : Result :=
  commit s (assign a (aluAdd (resolveValue b s) (resolveValue c s)) 4 s)

/-- R102. -/
def execMult (a : Dst) (b c : Src) (s : State) : Result :=
  commit s (assign a (aluMult (resolveValue b s) (resolveValue c s)) 4 s)

/-- R103. -/
def execMod (a : Dst) (b c : Src) (s : State) : Result :=
  commit s ((aluMod (resolveValue b s) (resolveValue c s)).bind fun v => assign a v 4 s)

/-- R104. -/
def execAnd (a : Dst) (b c : Src) (s : State) : Result :=
  commit s (assign a (aluAnd s.params.andOrWide (resolveValue b s) (resolveValue c s)) 4 s)

/-- R105. -/
def execOr (a : Dst) (b c : Src) (s : State) : Result :=
  commit s (assign a (aluOr s.params.andOrWide (resolveValue b s) (resolveValue c s)) 4 s)

/-- R106. -/
def execNot (a : Dst) (b : Src) (s : State) : Result :=
  commit s (assign a (aluNot (resolveValue b s)) 3 s)

end Sys2Proof.Machine
end

