-- ==== Sys2Proof/Machine/Flags.lean ====
section
/-! DEFINITION. The engine has no flags and no condition codes (spec/10_state.md rule R33). What other machines do with flags
is done here by 0 or 1 results and by tests of an operand value. -/

namespace Sys2Proof.Machine

/-- The word 1 or 0 that a comparison writes (42_compare.md R96, R97). -/
def boolWord (b : Bool) : Word := if b then 1#16 else 0#16

/-- The result of `eq`: all 16 bits are compared (42_compare.md R96). -/
def eqResult (b c : Word) : Word := boolWord (decide (b = c))

/-- The result of `gt`: unsigned (42_compare.md R97). -/
def gtResult (b c : Word) : Word := boolWord (decide (c.toNat < b.toNat))

/-- The condition of `jt`, negated for `jf`: any non-zero word is true (43_branch.md R99, R100). -/
def wordIsTrue (v : Word) : Bool := decide (v ≠ 0#16)

end Sys2Proof.Machine
end

