-- ==== Sys2Proof/Machine/Branch.lean ====
section
/-! DEFINITION. Jumps and branches: jmp, jt, jf (spec/43_branch.md). A target of 32768 or more is legal to hold; the next
fetch faults. -/

namespace Sys2Proof.Machine

/-- R98. -/
def execJmp (a : Src) (s : State) : Result := .next (s.setPc (resolveValue a s))

/-- R99. -/
def execJt (a b : Src) (s : State) : Result :=
  .next (if wordIsTrue (resolveValue a s) then s.setPc (resolveValue b s) else advance 3 s)

/-- R100. -/
def execJf (a b : Src) (s : State) : Result :=
  .next (if wordIsTrue (resolveValue a s) then advance 3 s else s.setPc (resolveValue b s))

end Sys2Proof.Machine
end

