-- ==== Sys2Proof/Machine/CallReturn.lean ====
section
/-! DEFINITION. Call and return: call, ret (spec/46_call_return.md). -/

namespace Sys2Proof.Machine

/-- R111: push the address after the call, then jump. -/
def execCall (a : Src) (s : State) : Result :=
  commit s ((push (s.pc + 2#16) s).map fun t => t.setPc (resolveValue a s))

/-- R112: an empty stack is a normal halt with pc unchanged. -/
def execRet (s : State) : Result :=
  match pop? s with
  | none => .next (enterHalted s)
  | some (v, t) => .next (t.setPc v)

end Sys2Proof.Machine
end

