-- ==== Sys2Proof/Machine/Compare.lean ====
section
/-! DEFINITION. Comparisons: eq, gt (spec/42_compare.md). -/

namespace Sys2Proof.Machine

/-- R96. -/
def execEq (a : Dst) (b c : Src) (s : State) : Result :=
  commit s (assign a (eqResult (resolveValue b s) (resolveValue c s)) 4 s)

/-- R97. -/
def execGt (a : Dst) (b c : Src) (s : State) : Result :=
  commit s (assign a (gtResult (resolveValue b s) (resolveValue c s)) 4 s)

end Sys2Proof.Machine
end

