-- ==== Sys2Proof/Machine/Control.lean ====
section
/-! DEFINITION. Machine control: halt, noop (spec/40_halt_noop.md). -/

namespace Sys2Proof.Machine

/-- R91: enter Halted; pc and everything else stay. -/
def execHalt (s : State) : Result := .next (enterHalted s)

/-- R92. -/
def execNoop (s : State) : Result := .next (advance 1 s)

end Sys2Proof.Machine
end

