-- ==== Sys2Proof/Machine/Io.lean ====
section
/-! DEFINITION. Character I/O: out, in (spec/47_io.md). -/

namespace Sys2Proof.Machine

/-- R113: bits 7 to 0 of the value. -/
def execOut (a : Src) (s : State) : Result :=
  .next (advance 2 (emit ((resolveValue a s).setWidth 8) s))

/-- R114: the row `in`. An empty queue suspends with no other effect, so that the whole step is retried. -/
def execInp (a : Dst) (s : State) : Result :=
  match dequeue? s with
  | none => .next (enterSuspended s)
  | some (v, t) => commit s (assign a v 2 t)

end Sys2Proof.Machine
end

