-- ==== Sys2Proof/Machine/MemAccess.lean ====
section
/-! DEFINITION. Memory loads and stores: rmem, wmem (spec/45_memory_access.md). -/

namespace Sys2Proof.Machine

/-- R109: the effective address is the value of b. -/
def execRmem (a : Dst) (b : Src) (s : State) : Result :=
  commit s ((memRead (resolveValue b s) s).bind fun v => assign a v 3 s)

/-- R110: a is a value operand, the effective address. -/
def execWmem (a b : Src) (s : State) : Result :=
  commit s ((memWrite (resolveValue a s) (resolveValue b s) s).map (advance 3))

end Sys2Proof.Machine
end

