-- ==== Sys2Proof/Machine/MoveStack.lean ====
section
/-! DEFINITION. Moves and the data stack: set, push, pop (spec/41_move_stack.md). -/

namespace Sys2Proof.Machine

/-- R93. -/
def execSet (a : Dst) (b : Src) (s : State) : Result :=
  commit s (assign a (resolveValue b s) 3 s)

/-- R94. -/
def execPush (a : Src) (s : State) : Result :=
  commit s ((push (resolveValue a s) s).map (advance 2))

/-- R95: the popped word is written verbatim; an empty stack is a fault. -/
def execPop (a : Dst) (s : State) : Result :=
  match pop? s with
  | none => commit s (.error .stackUnderflow)
  | some (v, t) => commit s (assign a v 2 t)

end Sys2Proof.Machine
end

