-- ==== Sys2Proof/WellFormed.lean ====
section
/-! DEFINITION. Which instructions the encoding can express: a literal word or memory address in an operand is at most
32767 (spec/30_encoding.md rule R66). A register number is in range by its type. -/

namespace Sys2Proof

def Src.wellFormed : Src → Bool
  | .lit w => decide (w.toNat < 32768)
  | .reg _ => true

def Dst.wellFormed : Dst → Bool
  | .mem a => decide (a.toNat < 32768)
  | .reg _ => true

/-- Every operand of the instruction can be encoded. -/
def Instr.wellFormed : Instr → Bool
  | .halt => true
  | .set a b => a.wellFormed && b.wellFormed
  | .push a => a.wellFormed
  | .pop a => a.wellFormed
  | .eq a b c => a.wellFormed && b.wellFormed && c.wellFormed
  | .gt a b c => a.wellFormed && b.wellFormed && c.wellFormed
  | .jmp a => a.wellFormed
  | .jt a b => a.wellFormed && b.wellFormed
  | .jf a b => a.wellFormed && b.wellFormed
  | .add a b c => a.wellFormed && b.wellFormed && c.wellFormed
  | .mult a b c => a.wellFormed && b.wellFormed && c.wellFormed
  | .mod a b c => a.wellFormed && b.wellFormed && c.wellFormed
  | .and a b c => a.wellFormed && b.wellFormed && c.wellFormed
  | .or a b c => a.wellFormed && b.wellFormed && c.wellFormed
  | .not a b => a.wellFormed && b.wellFormed
  | .rmem a b => a.wellFormed && b.wellFormed
  | .wmem a b => a.wellFormed && b.wellFormed
  | .call a => a.wellFormed
  | .ret => true
  | .out a => a.wellFormed
  | .inp a => a.wellFormed
  | .noop => true

end Sys2Proof
end

