-- ==== Sys2Proof/Decode.lean ====
section
/-! DEFINITION. The decoder and the encoder (spec/30_encoding.md). `decode` reads an instruction from the words that can
be fetched from the instruction's address on: the list ends where the address space ends, so a word that is missing is a
word that would have to be fetched at an address of 32768 or more. Total on every list of words; it rejects by name. -/

namespace Sys2Proof

/-- Why a list of words decodes to no instruction (30_encoding.md R90). -/
inductive DecodeError where
  /-- A word of the instruction is not there: its address is outside the memory (R83, R84). -/
  | truncated
  /-- The opcode word is 22 or more (R72). -/
  | invalidOpcode
  /-- An operand word is 32776 or more (R73). -/
  | invalidOperand
deriving DecidableEq, Repr

/-- The width column of the opcode map (R71), with the recovered widths of R70; none for an illegal opcode word (R72). -/
def opcodeWidth (op : Nat) : Option Nat :=
  match op with
  | 0 => some 1
  | 1 => some 3
  | 2 => some 2
  | 3 => some 2
  | 4 => some 4
  | 5 => some 4
  | 6 => some 2
  | 7 => some 3
  | 8 => some 3
  | 9 => some 4
  | 10 => some 4
  | 11 => some 4
  | 12 => some 4
  | 13 => some 4
  | 14 => some 3
  | 15 => some 3
  | 16 => some 3
  | 17 => some 2
  | 18 => some 1
  | 19 => some 2
  | 20 => some 2
  | 21 => some 1
  | _ => none

/-- The class of an operand word in the value role (R66, R76). -/
def Src.ofWord (w : Word) : Except DecodeError Src :=
  if w.toNat < 32768 then .ok (.lit w)
  else if h : w.toNat < 32776 then .ok (.reg ⟨w.toNat - 32768, by omega⟩)
  else .error .invalidOperand

/-- The class of an operand word in the target role (R66, R77). -/
def Dst.ofWord (w : Word) : Except DecodeError Dst :=
  if w.toNat < 32768 then .ok (.mem w)
  else if h : w.toNat < 32776 then .ok (.reg ⟨w.toNat - 32768, by omega⟩)
  else .error .invalidOperand

/-- Take one operand word in the value role: the word must be there, then it must be valid (60_exceptions.md R124). -/
def takeSrc : List Word → Except DecodeError (Src × List Word)
  | [] => .error .truncated
  | w :: rest => (Src.ofWord w).bind fun a => .ok (a, rest)

/-- Take one operand word in the target role (60_exceptions.md R124). -/
def takeDst : List Word → Except DecodeError (Dst × List Word)
  | [] => .error .truncated
  | w :: rest => (Dst.ofWord w).bind fun a => .ok (a, rest)

/-- Format V (R67). -/
def decodeV (mk : Src → Instr) (ws : List Word) : Except DecodeError (Instr × List Word) :=
  (takeSrc ws).bind fun a => .ok (mk a.1, a.2)

/-- Format T (R67). -/
def decodeT (mk : Dst → Instr) (ws : List Word) : Except DecodeError (Instr × List Word) :=
  (takeDst ws).bind fun a => .ok (mk a.1, a.2)

/-- Format TV (R67): slots in the order a, b (R84). -/
def decodeTV (mk : Dst → Src → Instr) (ws : List Word) : Except DecodeError (Instr × List Word) :=
  (takeDst ws).bind fun a => (takeSrc a.2).bind fun b => .ok (mk a.1 b.1, b.2)

/-- Format VV (R67): slots in the order a, b (R84). -/
def decodeVV (mk : Src → Src → Instr) (ws : List Word) : Except DecodeError (Instr × List Word) :=
  (takeSrc ws).bind fun a => (takeSrc a.2).bind fun b => .ok (mk a.1 b.1, b.2)

/-- Format TVV (R67): slots in the order a, b, c (R84). -/
def decodeTVV (mk : Dst → Src → Src → Instr) (ws : List Word) : Except DecodeError (Instr × List Word) :=
  (takeDst ws).bind fun a => (takeSrc a.2).bind fun b => (takeSrc b.2).bind fun c => .ok (mk a.1 b.1 c.1, c.2)

/-- The operands of opcode number `op` (R71); `ws` are the words after the opcode word. -/
def decodeOperands (op : Nat) (ws : List Word) : Except DecodeError (Instr × List Word) :=
  match op with
  | 0 => .ok (.halt, ws)
  | 1 => decodeTV .set ws
  | 2 => decodeV .push ws
  | 3 => decodeT .pop ws
  | 4 => decodeTVV .eq ws
  | 5 => decodeTVV .gt ws
  | 6 => decodeV .jmp ws
  | 7 => decodeVV .jt ws
  | 8 => decodeVV .jf ws
  | 9 => decodeTVV .add ws
  | 10 => decodeTVV .mult ws
  | 11 => decodeTVV .mod ws
  | 12 => decodeTVV .and ws
  | 13 => decodeTVV .or ws
  | 14 => decodeTV .not ws
  | 15 => decodeTV .rmem ws
  | 16 => decodeVV .wmem ws
  | 17 => decodeV .call ws
  | 18 => .ok (.ret, ws)
  | 19 => decodeV .out ws
  | 20 => decodeT .inp ws
  | 21 => .ok (.noop, ws)
  | _ => .error .invalidOpcode

/-- Decode one instruction and give back the words after it (R81, R88). The opcode word is read raw: it is never resolved
through a register (R64). -/
def decode : List Word → Except DecodeError (Instr × List Word)
  | [] => .error .truncated
  | op :: ws => decodeOperands op.toNat ws

/-- The operand word of a value operand (R66). -/
def Src.toWord : Src → Word
  | .lit w => w
  | .reg r => BitVec.ofNat 16 (32768 + r.val)

/-- The operand word of a target operand (R66). -/
def Dst.toWord : Dst → Word
  | .mem a => a
  | .reg r => BitVec.ofNat 16 (32768 + r.val)

/-- The words of an instruction (R67, R71). -/
def encode : Instr → List Word
  | .halt => [0]
  | .set a b => [1, a.toWord, b.toWord]
  | .push a => [2, a.toWord]
  | .pop a => [3, a.toWord]
  | .eq a b c => [4, a.toWord, b.toWord, c.toWord]
  | .gt a b c => [5, a.toWord, b.toWord, c.toWord]
  | .jmp a => [6, a.toWord]
  | .jt a b => [7, a.toWord, b.toWord]
  | .jf a b => [8, a.toWord, b.toWord]
  | .add a b c => [9, a.toWord, b.toWord, c.toWord]
  | .mult a b c => [10, a.toWord, b.toWord, c.toWord]
  | .mod a b c => [11, a.toWord, b.toWord, c.toWord]
  | .and a b c => [12, a.toWord, b.toWord, c.toWord]
  | .or a b c => [13, a.toWord, b.toWord, c.toWord]
  | .not a b => [14, a.toWord, b.toWord]
  | .rmem a b => [15, a.toWord, b.toWord]
  | .wmem a b => [16, a.toWord, b.toWord]
  | .call a => [17, a.toWord]
  | .ret => [18]
  | .out a => [19, a.toWord]
  | .inp a => [20, a.toWord]
  | .noop => [21]

/-- Pair bytes into words, low byte first (20_memory.md R59); a last odd byte is no word. -/
def pairBytes : List Byte → List Word
  | lo :: hi :: rest => (hi ++ lo) :: pairBytes rest
  | _ => []

/-- The decoder on the bytes of a program image (20_memory.md R59, then R88). -/
def decodeBytes (bytes : List Byte) : Except DecodeError (Instr × List Word) :=
  decode (pairBytes bytes)

/-- Word `k` of an instruction whose bits are numbered as spec/opcode_table.json numbers them; bits from `nbits` on are 0. -/
def tableWord (nbits w k : Nat) : Word :=
  BitVec.ofNat 16 ((w % 2 ^ nbits) / 2 ^ (16 * k))

/-- The four words, as many as the longest instruction has (00_scope.md R9, MAX_INSN_WORDS). -/
def tableWords (nbits w : Nat) : List Word :=
  [tableWord nbits w 0, tableWord nbits w 1, tableWord nbits w 2, tableWord nbits w 3]

/-- The instruction the decoder reads from a word of the opcode table; none where it refuses. -/
def decodeTableWord (nbits w : Nat) : Option Instr :=
  match decode (tableWords nbits w) with
  | .ok d => some d.1
  | .error _ => none

end Sys2Proof
end

