-- ==== Sys2Proof/Machine/Fetch.lean ====
section
/-! DEFINITION. Fetch and decode (spec/30_encoding.md rules R83, R84, R88). -/

namespace Sys2Proof.Machine

/-- Up to `n` words from address `a` on; the list ends where the address space ends, and no address wraps (10_state.md R25). -/
def fetchFrom (m : Memory) (a : Nat) : Nat → List Word
  | 0 => []
  | n + 1 => if a < 32768 then m.read a :: fetchFrom m (a + 1) n else []

/-- The words an instruction at pc can have: at most four (00_scope.md R9). -/
def fetchWindow (s : State) : List Word := fetchFrom s.mem s.pc.toNat 4

/-- The fault that a failed decode raises (60_exceptions.md R116): a missing word lies at an address of 32768 or more. -/
def causeOf : DecodeError → Cause
  | .truncated => .addressRange
  | .invalidOpcode => .invalidOpcode
  | .invalidOperand => .invalidOperand

/-- The decoded instruction at pc, or the one fault of the decode stage (R90, 60_exceptions.md R124). -/
def fetchDecode (s : State) : Except Cause Instr :=
  match decode (fetchWindow s) with
  | .ok d => .ok d.1
  | .error e => .error (causeOf e)

end Sys2Proof.Machine
end

