-- ==== Sys2Proof/Machine/Loader.lean ====
section
/-! DEFINITION. The image loader and construction, the engine's only reset (spec/20_memory.md rules R59 to R62,
spec/70_reset_and_hazards.md rule R141). -/

namespace Sys2Proof.Machine

/-- The memory that holds the words of an image from address `a` on, in canonical form. -/
def imageFrom (a : Nat) : List Word → Memory
  | [] => []
  | w :: ws => if w = 0#16 then imageFrom (a + 1) ws else (a, w) :: imageFrom (a + 1) ws

/-- construct(word sequence): FormatError for more than 32768 words, else word i at address i and every other piece of
state as after reset (R61, R62, 10_state.md R39). No word is validated. -/
def construct (p : Params) (ws : List Word) : Except Fault State :=
  if ws.length ≤ 32768 then .ok { State.reset with mem := imageFrom 0 ws, params := p }
  else .error .formatError

/-- The loader: pair the bytes low byte first; FormatError for an odd count (R59, R60). -/
def loadImage (p : Params) (bytes : List Byte) : Except Fault State :=
  if bytes.length % 2 = 1 then .error .formatError else construct p (pairBytes bytes)

end Sys2Proof.Machine
end

