-- ==== Sys2Proof/Machine/HostPort.lean ====
section
/-! DEFINITION. The host's side: LOAD, ENQ, RUN, the result of a run and the STATUS read (spec/60_exceptions.md rules R131 to
R137). The host acts while ACTIVE = 0 only. -/

namespace Sys2Proof.Machine

/-- LOAD(bytes) (R132): a new engine that discards the old one (R140); the parameters and the host's further commands are
not the engine's and stay. -/
def hostLoad (bytes : List Byte) (s : State) : Result :=
  match loadImage s.params bytes with
  | .ok t => .next (t.setHost s.host)
  | .error f => .fault f

/-- ENQ(w) (R131): ENQ to a full finite queue has no move. -/
def hostEnq (w : Word) (s : State) : Result :=
  if inputQueueFull s then .refused .inputQueueFull else .next (enqueue w s)

/-- RUN (R133): by the engine state it finds. -/
def hostRun (s : State) : Result :=
  match s.status.state with
  | .running => .next (beginRun s)
  | .suspended => .next (beginRun s)
  | .halted => .next s
  | .faulted => .next s

/-- One host command; during a run it has no move (R136). -/
def hostDo (c : HostCmd) (s : State) : Result :=
  if s.status.active then .refused .hostDuringRun
  else
    match c with
    | .load bytes => hostLoad bytes s
    | .enq w => hostEnq w s
    | .run => hostRun s

/-- The host's turn, taken when no step is enabled: its next command, or nothing while it has none (log 6). -/
def hostTurn (s : State) : Result :=
  match s.host with
  | [] => .next s
  | c :: cs => hostDo c (s.setHost cs)

/-- The results of a run (R137). -/
inductive RunResult where
  | halted
  | suspended
  | fault (c : Cause)
deriving DecidableEq, Repr

/-- The result RUN has given back, once no run is active (R133, R137); none while a run is active or before the first. -/
def runResult (x : Status) : Option RunResult :=
  if x.active then none
  else
    match x.state with
    | .running => none
    | .suspended => some .suspended
    | .halted => some .halted
    | .faulted => some (.fault x.cause)

end Sys2Proof.Machine
end

