-- ==== Sys2Proof/Machine/Step.lean ====
section
/-! DEFINITION. One step (spec/30_encoding.md rule R88), and the host's turn where no step is enabled (R87). -/

namespace Sys2Proof.Machine

/-- An enabled engine fetches, decodes and executes one instruction, or takes the decode stage's fault; otherwise the host has
its turn. -/
def step (s : State) : Host.Outcome State Fault Refusal :=
  if enabled s then
    match fetchDecode s with
    | .ok i => exec i s
    | .error c => .next (raiseFault c s)
  else hostTurn s

/-- Where an instruction of four words is stored for the next fetch: at pc, or at 0 where four words do not fit (log 7). -/
def fetchPlace (p : Word) : Word := if p.toNat + 4 ≤ 32768 then p else 0

/-- Store words from address `a` on. -/
def storeWords (m : Memory) (a : Nat) : List Word → Memory
  | [] => m
  | w :: ws => storeWords (m.write a w) (a + 1) ws

/-- The state with an instruction of the opcode table stored where the next step fetches, and the engine running, so that the
next step runs it (log 7). -/
def State.withFetchWord (s : State) (nbits w : Nat) : State :=
  beginRun ((s.setPc (fetchPlace s.pc)).setMem (storeWords s.mem (fetchPlace s.pc).toNat (tableWords nbits w)))

end Sys2Proof.Machine
end

