-- ==== Sys2Proof/Machine/Assembler.lean ====
section
/-! DEFINITION. The assembler syntax of spec/30_encoding.md rule R82, from its lines on: labels, instructions, raw words, and the
text of a line, and the decoding of a word sequence (R81). No step depends on it (log 18, log 20). -/

namespace Sys2Proof.Machine

/-- An operand as it is written: `regN`, a decimal literal, or a label's name (R82). -/
inductive AsmOperand where
  | reg (r : Fin 8)
  | lit (n : Nat)
  | label (name : String)
deriving DecidableEq, Repr

/-- A line (R82); a comment is no line. -/
inductive AsmLine where
  | instr (mnemonic : String) (operands : List AsmOperand)
  | word (n : Nat)
  | label (name : String)
deriving DecidableEq, Repr

/-- The mnemonics of the opcode map, in the order of their opcode numbers (R71). -/
def mnemonics : List String :=
  ["halt", "set", "push", "pop", "eq", "gt", "jmp", "jt", "jf", "add", "mult"] ++
  ["mod", "and", "or", "not", "rmem", "wmem", "call", "ret", "out", "in", "noop"]

/-- The opcode number of a mnemonic, counting from `n` (R69). -/
def opcodeIn (mnemonic : String) : Nat → List String → Option Nat
  | _, [] => none
  | n, m :: ms => if m = mnemonic then some n else opcodeIn mnemonic (n + 1) ms

def opcodeOf (mnemonic : String) : Option Nat := opcodeIn mnemonic 0 mnemonics

/-- How many words a line gives. -/
def AsmLine.size : AsmLine → Nat
  | .instr _ ops => 1 + ops.length
  | .word _ => 1
  | .label _ => 0

/-- The address of each label: the address of the next word (R82). -/
def labelTable (at_ : Nat) : List AsmLine → List (String × Nat)
  | [] => []
  | .label name :: ls => (name, at_) :: labelTable at_ ls
  | l :: ls => labelTable (at_ + l.size) ls

def labelAddress (name : String) : List (String × Nat) → Option Nat
  | [] => none
  | (n, a) :: t => if n = name then some a else labelAddress name t

/-- A literal or a label's address encodes as itself, 0 to 32767 (R82). -/
def literalWord (n : Nat) : Option Word := if n < 32768 then some (BitVec.ofNat 16 n) else none

/-- The word of an operand; `regN` is 32768 + N (R82). -/
def AsmOperand.toWord (table : List (String × Nat)) : AsmOperand → Option Word
  | .reg r => some (BitVec.ofNat 16 (32768 + r.val))
  | .lit n => literalWord n
  | .label name => (labelAddress name table).bind literalWord

def operandWords (table : List (String × Nat)) : List AsmOperand → Option (List Word)
  | [] => some []
  | o :: os =>
    match o.toWord table, operandWords table os with
    | some w, some ws => some (w :: ws)
    | _, _ => none

/-- The words of a line: an instruction has as many operands as its opcode has slots (R71). -/
def AsmLine.words (table : List (String × Nat)) : AsmLine → Option (List Word)
  | .label _ => some []
  | .word n => if n < 65536 then some [BitVec.ofNat 16 n] else none
  | .instr mnemonic ops =>
    match opcodeOf mnemonic, operandWords table ops with
    | some op, some ws => if opcodeWidth op = some (1 + ops.length) then some (BitVec.ofNat 16 op :: ws) else none
    | _, _ => none

def lineWords (table : List (String × Nat)) : List AsmLine → Option (List Word)
  | [] => some []
  | l :: ls =>
    match l.words table, lineWords table ls with
    | some ws, some rest => some (ws ++ rest)
    | _, _ => none

/-- The image words of a program; none when a line is not of the syntax. -/
def assemble (lines : List AsmLine) : Option (List Word) := lineWords (labelTable 0 lines) lines

/-- An operand as text (R82). -/
def AsmOperand.text : AsmOperand → String
  | .reg r => "reg" ++ toString r.val
  | .lit n => toString n
  | .label name => name

/-- A line as text: `mnemonic op1, op2, op3` (R82). -/
def AsmLine.text : AsmLine → String
  | .instr mnemonic [] => mnemonic
  | .instr mnemonic ops => mnemonic ++ " " ++ ", ".intercalate (ops.map AsmOperand.text)
  | .word n => ".word " ++ toString n
  | .label name => name ++ ":"

/-- How a decoded operand is written. -/
def asmSrc : Src → AsmOperand
  | .lit w => .lit w.toNat
  | .reg r => .reg r

def asmDst : Dst → AsmOperand
  | .mem a => .lit a.toNat
  | .reg r => .reg r

/-- How a decoded instruction is written, for a disassembly (R81, R82). -/
def asmLine : Instr → AsmLine
  | .halt => .instr "halt" []
  | .set a b => .instr "set" [asmDst a, asmSrc b]
  | .push a => .instr "push" [asmSrc a]
  | .pop a => .instr "pop" [asmDst a]
  | .eq a b c => .instr "eq" [asmDst a, asmSrc b, asmSrc c]
  | .gt a b c => .instr "gt" [asmDst a, asmSrc b, asmSrc c]
  | .jmp a => .instr "jmp" [asmSrc a]
  | .jt a b => .instr "jt" [asmSrc a, asmSrc b]
  | .jf a b => .instr "jf" [asmSrc a, asmSrc b]
  | .add a b c => .instr "add" [asmDst a, asmSrc b, asmSrc c]
  | .mult a b c => .instr "mult" [asmDst a, asmSrc b, asmSrc c]
  | .mod a b c => .instr "mod" [asmDst a, asmSrc b, asmSrc c]
  | .and a b c => .instr "and" [asmDst a, asmSrc b, asmSrc c]
  | .or a b c => .instr "or" [asmDst a, asmSrc b, asmSrc c]
  | .not a b => .instr "not" [asmDst a, asmSrc b]
  | .rmem a b => .instr "rmem" [asmDst a, asmSrc b]
  | .wmem a b => .instr "wmem" [asmSrc a, asmSrc b]
  | .call a => .instr "call" [asmSrc a]
  | .ret => .instr "ret" []
  | .out a => .instr "out" [asmSrc a]
  | .inp a => .instr "in" [asmDst a]
  | .noop => .instr "noop" []

/-- How many words decoding a sequence takes at an opcode word: its width, whatever its operand words are (R81). An illegal word
is taken alone, where R81 does not say how to go on (log 20). -/
def wordsTaken (op : Word) : Nat := (opcodeWidth op.toNat).getD 1

/-- The instructions of a word sequence read as code from its start, at most `n` of them, each by its words (R81). -/
def splitCode : Nat → List Word → List (List Word)
  | 0, _ => []
  | _ + 1, [] => []
  | n + 1, op :: ws => (op :: ws).take (wordsTaken op) :: splitCode n ((op :: ws).drop (wordsTaken op))

/-- How the words taken for one instruction are written: as the instruction, or as raw words where they decode to none. -/
def codeLines (ws : List Word) : List AsmLine :=
  match decode ws with
  | .ok d => [asmLine d.1]
  | .error _ => ws.map fun w => .word w.toNat

/-- The lines of a word sequence read as code from its start, at most `n` instructions of it (R81, R82). -/
def disassemble (n : Nat) (ws : List Word) : List AsmLine := (splitCode n ws).flatMap codeLines

end Sys2Proof.Machine
end

