-- ==== Sys2Proof/Safety.lean ====
section
/-! DEFINITION. What counts as a safe state, and the words that the statements are written in: what an instruction writes, what
it keeps, which fault it takes, and what a run reaches. -/

namespace Sys2Proof.Machine

/-! ### The invariant -/

/-- STATUS as spec/10_state.md R29 allows it: CAUSE is 0 unless Faulted, and ACTIVE is 1 in Running only. -/
abbrev Status.legal (x : Status) : Prop :=
  (x.cause = .none ↔ x.state ≠ .faulted) ∧ (x.active = true → x.state = .running)

/-- A number of entries is within a capacity; `none` is unbounded (00_scope.md R10). -/
def Within (n : Nat) (capacity : Option Nat) : Prop := ∀ c, capacity = some c → n ≤ c

/-- The states a machine can be in: memory in canonical form, STATUS legal, stack and input queue within their capacities. -/
structure Inv (s : State) : Prop where
  mem : s.mem.wf = true
  status : s.status.legal
  stack : Within s.stack.length s.params.stackCapacity
  inq : Within s.inq.length s.params.inputQueueCapacity

/-! ### What an instruction writes and keeps -/

/-- The destination `d` holds `v` after, every other register and every other word of memory reads as before. -/
def TargetWritten (d : Dst) (v : Word) (s t : State) : Prop :=
  (∀ r : Fin 8, readReg r t = if d = .reg r then v else readReg r s) ∧
  ∀ a : Nat, t.mem.read a = if targetAddress d = some a then v else s.mem.read a

/-- STATUS, the output stream and the two fields of the model's own are as before. -/
def KeepsStatusAndOutput (s t : State) : Prop :=
  t.status = s.status ∧ t.outs = s.outs ∧ t.params = s.params ∧ t.host = s.host

/-- `i` answers a next state that differs from `s` in its destination `d`, which holds `v`, and in pc, which is `n` further. -/
def Assigns (i : Instr) (d : Dst) (v : Word) (n : Nat) (s : State) : Prop :=
  ∃ t, exec i s = .next t ∧ t.pc = s.pc + BitVec.ofNat 16 n ∧ TargetWritten d v s t ∧
    t.stack = s.stack ∧ t.inq = s.inq ∧ KeepsStatusAndOutput s t

/-- `i` ends its step in Faulted with this cause. Of the state after a fault only STATUS may be claimed
(93_implementation_defined.md U6). -/
def FaultsWith (i : Instr) (c : Cause) (s : State) : Prop :=
  ∃ t, exec i s = .next t ∧ t.status = { state := .faulted, active := false, cause := c }

/-- A step ends in Faulted with this cause. -/
def StepFaultsWith (c : Cause) (s : State) : Prop :=
  ∃ t, step s = .next t ∧ t.status = { state := .faulted, active := false, cause := c }

/-- The target operand of an instruction (30_encoding.md R68). -/
def targetOf : Instr → Option Dst
  | .set a _ => some a
  | .pop a => some a
  | .eq a _ _ => some a
  | .gt a _ _ => some a
  | .add a _ _ => some a
  | .mult a _ _ => some a
  | .mod a _ _ => some a
  | .and a _ _ => some a
  | .or a _ _ => some a
  | .not a _ => some a
  | .rmem a _ => some a
  | .inp a => some a
  | .halt => none
  | .push _ => none
  | .jmp _ => none
  | .jt _ _ => none
  | .jf _ _ => none
  | .wmem _ _ => none
  | .call _ => none
  | .ret => none
  | .out _ => none
  | .noop => none

/-- The address an instruction stores to in state `s`: its literal target, or the effective address of `wmem`
(20_memory.md R46). -/
def storeAddress (i : Instr) (s : State) : Option Nat :=
  match i with
  | .wmem a _ => some (resolveValue a s).toNat
  | _ => (targetOf i).bind targetAddress

/-- The word an instruction stores at its destination in state `s` (spec/40_halt_noop.md to 47_io.md); none where it writes no
target, and where its own condition faults or suspends. -/
def storedWord (i : Instr) (s : State) : Option Word :=
  match i with
  | .set _ b => some (resolveValue b s)
  | .pop _ => s.stack.head?
  | .eq _ b c => some (eqResult (resolveValue b s) (resolveValue c s))
  | .gt _ b c => some (gtResult (resolveValue b s) (resolveValue c s))
  | .add _ b c => some (aluAdd (resolveValue b s) (resolveValue c s))
  | .mult _ b c => some (aluMult (resolveValue b s) (resolveValue c s))
  | .mod _ b c => (aluMod (resolveValue b s) (resolveValue c s)).toOption
  | .and _ b c => some (aluAnd s.params.andOrWide (resolveValue b s) (resolveValue c s))
  | .or _ b c => some (aluOr s.params.andOrWide (resolveValue b s) (resolveValue c s))
  | .not _ b => some (aluNot (resolveValue b s))
  | .rmem _ b => (memRead (resolveValue b s) s).toOption
  | .wmem _ b => some (resolveValue b s)
  | .inp _ => s.inq.head?
  | .halt => none
  | .push _ => none
  | .jmp _ => none
  | .jt _ _ => none
  | .jf _ _ => none
  | .call _ => none
  | .ret => none
  | .out _ => none
  | .noop => none

/-! ### Runs -/

/-- `k` steps from `s` answer `t`. -/
def RunsTo (k : Nat) (s t : State) : Prop := Host.Core.run Sys2Proof.core k s = .next t

/-- A run from `s` completes: it ends HALTED (60_exceptions.md R137). R137 and R144 know one LOAD only. That a run is followed
across a later LOAD in the host's list, so that HALTED of the replacing program counts, is the model's choice (log 19). -/
def Completes (s : State) : Prop := ∃ k t, RunsTo k s t ∧ runResult t.status = some .halted

end Sys2Proof.Machine
end

