-- ==== Sys2Proof/Certificates/Slice0/Obligations.lean ====
section
/-! DEFINITION. The statements for the provers. Each is read from the rules of spec/ that its docstring names. Of the state after
a fault the result statements claim STATUS only (spec/93_implementation_defined.md U6). A statement over every state is a
statement over every value of the three parameters, which State carries (log 3). -/

open Sys2Proof Sys2Proof.Machine

/-! ### Machine control -/

/-- R91: STATE becomes Halted, ACTIVE 0, nothing else changes; the run's result is HALTED and a later RUN changes nothing. -/
def Obligations.HaltEntersHaltedAndStays : Prop :=
  encode .halt = [0] ∧ ∀ s : State, ∃ t, exec .halt s = .next t ∧
    t = { s with status := { s.status with state := .halted, active := false } } ∧
    runResult t.status = some .halted ∧ hostRun t = .next t

/-- R92. -/
def Obligations.NoopAdvancesPcOnly : Prop :=
  encode .noop = [21] ∧ ∀ s : State, exec .noop s = .next { s with pc := s.pc + 1#16 }

/-! ### Moves and the data stack -/

/-- R93. -/
def Obligations.SetCopiesValueToTarget : Prop :=
  ∀ (a : Dst) (b : Src) (s : State), a.wellFormed = true →
    encode (.set a b) = [1, a.toWord, b.toWord] ∧ Assigns (.set a b) a (resolveValue b s) 3 s

/-- R94: the push, and the overflow of a full finite stack. -/
def Obligations.PushPushesOrOverflows : Prop :=
  ∀ (a : Src) (s : State), encode (.push a) = [2, a.toWord] ∧
    (s.params.stackCapacity ≠ some s.stack.length →
      exec (.push a) s = .next { s with stack := resolveValue a s :: s.stack, pc := s.pc + 2#16 }) ∧
    (s.params.stackCapacity = some s.stack.length → FaultsWith (.push a) .stackOverflow s)

/-- R95: the popped word goes to the target verbatim; an empty stack is a fault. -/
def Obligations.PopWritesTopOrUnderflows : Prop :=
  ∀ (a : Dst) (s : State), a.wellFormed = true →
    encode (.pop a) = [3, a.toWord] ∧
    (∀ v st, s.stack = v :: st → ∃ t, exec (.pop a) s = .next t ∧ t.pc = s.pc + 2#16 ∧ TargetWritten a v s t ∧
      t.stack = st ∧ t.inq = s.inq ∧ KeepsStatusAndOutput s t) ∧
    (s.stack = [] → FaultsWith (.pop a) .stackUnderflow s)

/-! ### Comparisons -/

/-- R96: all 16 bits are compared. -/
def Obligations.EqWritesEqualityOfWords : Prop :=
  ∀ (a : Dst) (b c : Src) (s : State), a.wellFormed = true →
    encode (.eq a b c) = [4, a.toWord, b.toWord, c.toWord] ∧
    Assigns (.eq a b c) a (if resolveValue b s = resolveValue c s then 1 else 0) 4 s

/-- R97: unsigned. -/
def Obligations.GtWritesUnsignedComparison : Prop :=
  ∀ (a : Dst) (b c : Src) (s : State), a.wellFormed = true →
    encode (.gt a b c) = [5, a.toWord, b.toWord, c.toWord] ∧
    Assigns (.gt a b c) a (if (resolveValue b s).toNat > (resolveValue c s).toNat then 1 else 0) 4 s

/-! ### Jumps and branches -/

/-- R98: any target is legal to hold. -/
def Obligations.JmpSetsPcOnly : Prop :=
  ∀ (a : Src) (s : State), encode (.jmp a) = [6, a.toWord] ∧ exec (.jmp a) s = .next { s with pc := resolveValue a s }

/-- R99. -/
def Obligations.JtJumpsOnNonZero : Prop :=
  ∀ (a b : Src) (s : State), encode (.jt a b) = [7, a.toWord, b.toWord] ∧
    exec (.jt a b) s = .next { s with pc := if resolveValue a s ≠ 0#16 then resolveValue b s else s.pc + 3#16 }

/-- R100. -/
def Obligations.JfJumpsOnZero : Prop :=
  ∀ (a b : Src) (s : State), encode (.jf a b) = [8, a.toWord, b.toWord] ∧
    exec (.jf a b) s = .next { s with pc := if resolveValue a s = 0#16 then resolveValue b s else s.pc + 3#16 }

/-! ### Arithmetic and logic -/

/-- R101: the exact sum, then reduced. -/
def Obligations.AddWritesSumModulo32768 : Prop :=
  ∀ (a : Dst) (b c : Src) (s : State), a.wellFormed = true →
    encode (.add a b c) = [9, a.toWord, b.toWord, c.toWord] ∧
    Assigns (.add a b c) a (BitVec.ofNat 16 (((resolveValue b s).toNat + (resolveValue c s).toNat) % 32768)) 4 s

/-- R102: the exact product, then reduced. -/
def Obligations.MultWritesProductModulo32768 : Prop :=
  ∀ (a : Dst) (b c : Src) (s : State), a.wellFormed = true →
    encode (.mult a b c) = [10, a.toWord, b.toWord, c.toWord] ∧
    Assigns (.mult a b c) a (BitVec.ofNat 16 (((resolveValue b s).toNat * (resolveValue c s).toNat) % 32768)) 4 s

/-- R103: the unsigned remainder; a zero divisor is a fault (the spec's decision D14). -/
def Obligations.ModWritesRemainderOrFaults : Prop :=
  ∀ (a : Dst) (b c : Src) (s : State), a.wellFormed = true →
    encode (.mod a b c) = [11, a.toWord, b.toWord, c.toWord] ∧
    (resolveValue c s ≠ 0#16 →
      Assigns (.mod a b c) a (BitVec.ofNat 16 ((resolveValue b s).toNat % (resolveValue c s).toNat)) 4 s) ∧
    (resolveValue c s = 0#16 → FaultsWith (.mod a b c) .divideByZero s)

/-- R104: under each value of AND_OR_WIDE. -/
def Obligations.AndWritesBitwiseAnd : Prop :=
  ∀ (a : Dst) (b c : Src) (s : State), a.wellFormed = true →
    encode (.and a b c) = [12, a.toWord, b.toWord, c.toWord] ∧
    (s.params.andOrWide = .raw16 → Assigns (.and a b c) a (resolveValue b s &&& resolveValue c s) 4 s) ∧
    (s.params.andOrWide = .mask15 → Assigns (.and a b c) a ((resolveValue b s &&& resolveValue c s) &&& 0x7FFF#16) 4 s)

/-- R105: under each value of AND_OR_WIDE. -/
def Obligations.OrWritesBitwiseOr : Prop :=
  ∀ (a : Dst) (b c : Src) (s : State), a.wellFormed = true →
    encode (.or a b c) = [13, a.toWord, b.toWord, c.toWord] ∧
    (s.params.andOrWide = .raw16 → Assigns (.or a b c) a (resolveValue b s ||| resolveValue c s) 4 s) ∧
    (s.params.andOrWide = .mask15 → Assigns (.or a b c) a ((resolveValue b s ||| resolveValue c s) &&& 0x7FFF#16) 4 s)

/-- R106: NOT16 masked to 15 bits, which is 32767 less the low 15 bits. -/
def Obligations.NotWritesFifteenBitComplement : Prop :=
  ∀ (a : Dst) (b : Src) (s : State), a.wellFormed = true →
    encode (.not a b) = [14, a.toWord, b.toWord] ∧
    Assigns (.not a b) a ((resolveValue b s ^^^ 0xFFFF#16) &&& 0x7FFF#16) 3 s ∧
    Assigns (.not a b) a (BitVec.ofNat 16 (32767 - (resolveValue b s).toNat % 32768)) 3 s

/-- R107, R108: add, mult and not give words of 15 bits whatever their operands, the others from operands of 15 bits. -/
def Obligations.AluResultsStayInFifteenBits : Prop :=
  ∀ b c : Word, (aluAdd b c).toNat < 32768 ∧ (aluMult b c).toNat < 32768 ∧ (aluNot b).toNat < 32768 ∧
    (∀ r, aluMod b c = .ok r → r.toNat < c.toNat) ∧
    (b.toNat < 32768 → c.toNat < 32768 → ∀ m, (aluAnd m b c).toNat < 32768 ∧ (aluOr m b c).toNat < 32768)

/-! ### Memory loads and stores -/

/-- R109: b is the effective address. -/
def Obligations.RmemLoadsWordOrFaults : Prop :=
  ∀ (a : Dst) (b : Src) (s : State), a.wellFormed = true →
    encode (.rmem a b) = [15, a.toWord, b.toWord] ∧
    ((resolveValue b s).toNat < 32768 → Assigns (.rmem a b) a (s.mem.read (resolveValue b s).toNat) 3 s) ∧
    (32768 ≤ (resolveValue b s).toNat → FaultsWith (.rmem a b) .addressRange s)

/-- R110: the value of a is the effective address, and nothing else is written. -/
def Obligations.WmemStoresWordOrFaults : Prop :=
  ∀ (a b : Src) (s : State), encode (.wmem a b) = [16, a.toWord, b.toWord] ∧
    ((resolveValue a s).toNat < 32768 → ∃ t, exec (.wmem a b) s = .next t ∧ t.pc = s.pc + 3#16 ∧
      (∀ x, t.mem.read x = if (resolveValue a s).toNat = x then resolveValue b s else s.mem.read x) ∧
      (∀ r, readReg r t = readReg r s) ∧ t.stack = s.stack ∧ t.inq = s.inq ∧ KeepsStatusAndOutput s t) ∧
    (32768 ≤ (resolveValue a s).toNat → FaultsWith (.wmem a b) .addressRange s)

/-- R48, R49: one word inside 0 to 32767, and a fault outside. -/
def Obligations.MemoryAccessIsOneWordInRange : Prop :=
  ∀ (a v : Word) (s : State),
    (a.toNat < 32768 → memRead a s = .ok (s.mem.read a.toNat) ∧ ∃ t, memWrite a v s = .ok t ∧
      memRead a t = .ok v ∧ ∀ x, x ≠ a.toNat → t.mem.read x = s.mem.read x) ∧
    (32768 ≤ a.toNat → memRead a s = .error .addressRange ∧ memWrite a v s = .error .addressRange)

/-- R20, R78 (the source's addressing symmetry): what WriteTarget wrote is what a later read gives. -/
def Obligations.WrittenTargetReadsBack : Prop :=
  ∀ (d : Dst) (v : Word) (s t : State), writeTarget d v s = .ok t →
    (∀ r, d = .reg r → resolveValue (.reg r) t = v) ∧ (∀ a, d = .mem a → memRead a t = .ok v)

/-- R57: the words that a fetch at any address sees after a store, by wmem or by any instruction with a literal target. Where the
instruction stores nothing because its own condition stops it, it ends Faulted or Suspended. -/
def Obligations.StoreIsSeenByEveryLaterFetch : Prop :=
  ∀ (i : Instr) (x : Nat) (s : State), storeAddress i s = some x → x < 32768 → ∃ t, exec i s = .next t ∧
    (∀ v, storedWord i s = some v → t.status = s.status ∧ ∀ p n k, k < n → p + k < 32768 →
      (fetchFrom t.mem p n)[k]? = some (if p + k = x then v else s.mem.read (p + k))) ∧
    (storedWord i s = none → t.status.state = .faulted ∨ t.status.state = .suspended)

/-! ### Call and return -/

/-- R111: the address after the call is pushed; the overflow of a full finite stack. -/
def Obligations.CallPushesReturnAddressOrOverflows : Prop :=
  ∀ (a : Src) (s : State), encode (.call a) = [17, a.toWord] ∧
    (s.params.stackCapacity ≠ some s.stack.length →
      exec (.call a) s = .next { s with stack := (s.pc + 2#16) :: s.stack, pc := resolveValue a s }) ∧
    (s.params.stackCapacity = some s.stack.length → FaultsWith (.call a) .stackOverflow s)

/-- R112: the popped word becomes pc; an empty stack halts with pc unchanged, with the result that halt gives. -/
def Obligations.RetPopsPcOrHalts : Prop :=
  encode .ret = [18] ∧ ∀ s : State,
    (∀ v st, s.stack = v :: st → exec .ret s = .next { s with stack := st, pc := v }) ∧
    (s.stack = [] → ∃ t, exec .ret s = .next t ∧
      t = { s with status := { s.status with state := .halted, active := false } } ∧
      runResult t.status = some .halted ∧ exec .halt s = .next t)

/-! ### Character I/O -/

/-- R113: the low byte of the value is appended. -/
def Obligations.OutEmitsLowByte : Prop :=
  ∀ (a : Src) (s : State), encode (.out a) = [19, a.toWord] ∧
    exec (.out a) s =
      .next { s with outs := s.outs ++ [BitVec.ofNat 8 ((resolveValue a s).toNat % 256)], pc := s.pc + 2#16 }

/-- R114: the oldest word goes to the target verbatim; an empty queue suspends and changes nothing else, and RUN then gives back
the very state the step began in, so that the whole step is retried. -/
def Obligations.InDequeuesOrSuspends : Prop :=
  ∀ (a : Dst) (s : State), a.wellFormed = true →
    encode (.inp a) = [20, a.toWord] ∧
    (∀ v q, s.inq = v :: q → ∃ t, exec (.inp a) s = .next t ∧ t.pc = s.pc + 2#16 ∧ TargetWritten a v s t ∧
      t.inq = q ∧ t.stack = s.stack ∧ KeepsStatusAndOutput s t) ∧
    (s.inq = [] → ∃ t, exec (.inp a) s = .next t ∧
      t = { s with status := { s.status with state := .suspended, active := false } } ∧
      runResult t.status = some .suspended ∧ (enabled s = true → hostRun t = .next s))

/-! ### Encoding -/

/-- R66, R67, R71, R81: decoding an encoded instruction gives it back, with the words after it. -/
def Obligations.DecodeOfEncode : Prop :=
  ∀ (i : Instr) (rest : List Word), i.wellFormed = true → decode (encode i ++ rest) = .ok (i, rest)

/-- R90: a list of words that decodes is the encoding of a well-formed instruction, and of no other. -/
def Obligations.DecodedWordsAreTheEncoding : Prop :=
  ∀ (ws rest : List Word) (i : Instr), decode ws = .ok (i, rest) → i.wellFormed = true ∧ ws = encode i ++ rest

/-- Words written out from 30_encoding.md R66, R67, R71 and the instruction each stands for (a sanity statement). -/
def Obligations.SpecWordsDecodeAsWritten : Prop :=
  decode [0] = .ok (.halt, []) ∧
  decode [1, 32769, 7] = .ok (.set (.reg 1) (.lit 7), []) ∧
  decode [3, 0] = .ok (.pop (.mem 0), []) ∧
  decode [9, 32768, 4, 6, 0] = .ok (.add (.reg 0) (.lit 4) (.lit 6), [0]) ∧
  decode [16, 100, 32775] = .ok (.wmem (.lit 100) (.reg 7), []) ∧
  decode [20, 32767] = .ok (.inp (.mem 32767), []) ∧
  decode [22] = .error .invalidOpcode ∧ decode [32768] = .error .invalidOpcode ∧
  decode [3, 40000] = .error .invalidOperand ∧ decode [6] = .error .truncated

/-- R66, R76, R77: the class of an operand word by its value alone, in both roles. -/
def Obligations.OperandWordMeansByItsClass : Prop :=
  ∀ (w : Word) (s : State),
    (w.toNat ≤ 32767 → (∃ a, Src.ofWord w = .ok a ∧ resolveValue a s = w) ∧ Dst.ofWord w = .ok (.mem w)) ∧
    (∀ r : Fin 8, w.toNat = 32768 + r.val →
      (∃ a, Src.ofWord w = .ok a ∧ resolveValue a s = readReg r s) ∧ Dst.ofWord w = .ok (.reg r)) ∧
    (32776 ≤ w.toNat → Src.ofWord w = .error .invalidOperand ∧ Dst.ofWord w = .error .invalidOperand)

/-- R82: the assembly line of an instruction assembles to its words. The line form is the model's (log 18). -/
def Obligations.AssemblyLineGivesEncoding : Prop :=
  ∀ i : Instr, i.wellFormed = true → assemble [asmLine i] = some (encode i)

/-- R81: decoding a word sequence takes the words that the width of a legal opcode word says, whatever the operand words are, and
goes on after them; and the lines written for any sequence assemble to its words. The lines are the model's (log 18), and so is
how decoding goes on after an illegal word (log 20). -/
def Obligations.SequenceDecodingFollowsWidths : Prop :=
  (∀ (n : Nat) (op : Word) (ws : List Word), op.toNat ≤ 21 → ∃ k lines, opcodeWidth op.toNat = some k ∧
    disassemble (n + 1) (op :: ws) = lines ++ disassemble n ((op :: ws).drop k) ∧ assemble lines = some ((op :: ws).take k)) ∧
  (∀ (n : Nat) (i : Instr) (rest : List Word), i.wellFormed = true →
    disassemble (n + 1) (encode i ++ rest) = asmLine i :: disassemble n rest) ∧
  ∀ (n : Nat) (ws : List Word), ws.length ≤ n → assemble (disassemble n ws) = some ws

/-! ### The step -/

/-- R83 to R88: an enabled step whose words at pc decode runs exec of the decoded instruction; the step adds nothing of its own, and
the instruction itself sets the next pc. -/
def Obligations.StepRunsDecodedInstruction : Prop :=
  ∀ (s : State) (i : Instr) (rest : List Word), enabled s = true → decode (fetchWindow s) = .ok (i, rest) →
    step s = exec i s

/-- R63, R83, R84, R88: when the words of a well-formed instruction stand in memory from pc on, an enabled step runs it. -/
def Obligations.WordsAtPcAreExecuted : Prop :=
  ∀ (s : State) (i : Instr), enabled s = true → i.wellFormed = true →
    (∀ k w, (encode i)[k]? = some w → s.pc.toNat + k < 32768 ∧ s.mem.read (s.pc.toNat + k) = w) → step s = exec i s

/-- R72, R73, R83, R84, R124: the fault of the decode stage is the first one met, in the order of R124. -/
def Obligations.DecodeFaultsInOrder : Prop :=
  ∀ s : State, enabled s = true →
    (32768 ≤ s.pc.toNat → StepFaultsWith .addressRange s) ∧
    (s.pc.toNat < 32768 → 22 ≤ (s.mem.read s.pc.toNat).toNat → StepFaultsWith .invalidOpcode s) ∧
    ∀ n k, s.pc.toNat < 32768 → opcodeWidth (s.mem.read s.pc.toNat).toNat = some n → 1 ≤ k → k < n →
      (∀ j, 1 ≤ j → j < k → s.pc.toNat + j < 32768 ∧ (s.mem.read (s.pc.toNat + j)).toNat < 32776) →
      (32768 ≤ s.pc.toNat + k → StepFaultsWith .addressRange s) ∧
      (s.pc.toNat + k < 32768 → 32776 ≤ (s.mem.read (s.pc.toNat + k)).toNat → StepFaultsWith .invalidOperand s)

/-- R85, R87, R150: an enabled engine always takes its next step; no instruction stops the model. -/
def Obligations.EnabledStepAnswersNextState : Prop :=
  ∀ s : State, enabled s = true → ∃ t, step s = .next t

/-! ### STATUS, faults and stops -/

/-- R27, R116: the STATUS word. -/
def Obligations.StatusWordHasItsLayout : Prop :=
  ∀ x : Status,
    (statusWord x).toNat = x.state.code + 4 * (if x.active then 1 else 0) + 8 * x.cause.code ∧
    [EngineState.running, .suspended, .halted, .faulted].map EngineState.code = [0, 1, 2, 3] ∧
    [Cause.none, .invalidOpcode, .invalidOperand, .stackUnderflow, .divideByZero, .addressRange, .stackOverflow].map
      Cause.code = [0, 1, 2, 3, 4, 5, 6]

/-- R117: a raised fault sets STATUS, and the run's result is FAULT(cause). -/
def Obligations.RaisedFaultSetsStatusAndResult : Prop :=
  ∀ (c : Cause) (s : State), ∃ t, commit s (.error c) = .next t ∧
    t.status = { state := .faulted, active := false, cause := c } ∧ runResult t.status = some (.fault c)

/-- R118, which the spec marks as its own decision D10: a step that ends in Faulted changed STATUS only. -/
def Obligations.FaultingStepCommitsNothing : Prop :=
  ∀ s t : State, enabled s = true → step s = .next t → t.status.state = .faulted →
    ∃ c, c ≠ .none ∧ t = { s with status := { state := .faulted, active := false, cause := c } }

/-- R26, R119, R133: Halted and Faulted are never left, and nothing runs in them; only a LOAD builds another engine. -/
def Obligations.HaltedAndFaultedAreNeverLeft : Prop :=
  ∀ s t : State, (s.status.state = .halted ∨ s.status.state = .faulted) → s.status.active = false →
    (∀ bytes cs, s.host ≠ .load bytes :: cs) → step s = .next t →
    t.status = s.status ∧ t.mem = s.mem ∧ t.regs = s.regs ∧ t.pc = s.pc ∧ t.stack = s.stack ∧ t.outs = s.outs

/-- R122: Suspended is entered only by `in` on an empty queue. -/
def Obligations.SuspendedOnlyByInOnEmptyQueue : Prop :=
  ∀ s t : State, enabled s = true → step s = .next t → t.status.state = .suspended →
    s.inq = [] ∧ ∃ a, fetchDecode s = .ok (.inp a)

/-- R121: Halted is entered only by `halt` and by `ret` on an empty stack. -/
def Obligations.HaltedOnlyByHaltOrEmptyRet : Prop :=
  ∀ s t : State, enabled s = true → step s = .next t → t.status.state = .halted →
    fetchDecode s = .ok .halt ∨ (fetchDecode s = .ok .ret ∧ s.stack = [])

/-! ### Whole-machine rules -/

/-- R29, R30, R35, R40: every step keeps the memory's canonical form, a legal STATUS, and the stack and the queue within their
capacities. -/
def Obligations.EveryStepKeepsTheInvariant : Prop :=
  ∀ s t : State, Inv s → step s = .next t → Inv t

/-- The invariant holds after reset. -/
def Obligations.ResetMeetsTheInvariant : Prop := Inv State.reset

/-- R32: only push, pop, call and ret touch the stack. -/
def Obligations.OnlyStackInstructionsTouchTheStack : Prop :=
  ∀ (i : Instr) (s t : State), exec i s = .next t → t.stack ≠ s.stack →
    (∃ a, i = .push a) ∨ (∃ a, i = .pop a) ∨ (∃ a, i = .call a) ∨ i = .ret

/-- R20: a register changes only as the target operand of the instruction. -/
def Obligations.RegistersChangeOnlyAsTargets : Prop :=
  ∀ (i : Instr) (s t : State) (r : Fin 8), exec i s = .next t → readReg r t ≠ readReg r s → targetOf i = some (.reg r)

/-- R45, R46: a word of memory changes only at the address the instruction stores to. -/
def Obligations.MemoryChangesOnlyAtTheStoreAddress : Prop :=
  ∀ (i : Instr) (s t : State) (a : Nat), exec i s = .next t → t.mem.read a ≠ s.mem.read a →
    storeAddress i s = some a ∧ a < 32768

/-- R37: only `out` emits, one byte, after everything emitted before. -/
def Obligations.OutputGrowsOnlyByOut : Prop :=
  ∀ (i : Instr) (s t : State), exec i s = .next t →
    t.outs = s.outs ∨ ∃ a, i = .out a ∧ t.outs = s.outs ++ [(resolveValue a s).setWidth 8]

/-- R35, R36: only `in` drains the queue, exactly its oldest word. -/
def Obligations.QueueIsDrainedOnlyByIn : Prop :=
  ∀ (i : Instr) (s t : State), exec i s = .next t → t.inq = s.inq ∨ ∃ a v, i = .inp a ∧ s.inq = v :: t.inq

/-- R34, R38: no instruction observes STATUS, the output stream or the host: with others in their place, everything else comes
out the same. -/
def Obligations.NoInstructionObservesStatusOrOutput : Prop :=
  ∀ (i : Instr) (s t : State) (x : Status) (o : List Byte) (h : List HostCmd), exec i s = .next t →
    ∃ x', exec i { s with status := x, outs := o ++ s.outs, host := h } =
      .next { t with status := x', outs := o ++ t.outs, host := h }

/-- R17: no step changes the parameters. -/
def Obligations.NoStepChangesTheParameters : Prop :=
  ∀ s t : State, step s = .next t → t.params = s.params

/-- R152: a `jmp` to itself runs for ever, and so does a `call` to itself under an unbounded stack, which grows by the return
address at each step. -/
def Obligations.SelfLoopsRunForEver : Prop :=
  ∀ s : State, enabled s = true → s.pc.toNat + 1 < 32768 → s.mem.read (s.pc.toNat + 1) = s.pc →
    (s.mem.read s.pc.toNat = 6#16 → ∀ k, RunsTo k s s) ∧
    (s.mem.read s.pc.toNat = 17#16 → s.params.stackCapacity = none →
      ∀ k, RunsTo k s { s with stack := List.replicate k (s.pc + 2#16) ++ s.stack })

/-! ### Reset and the host interface -/

/-- R22, R39, R142: the reset values, and no step before the first RUN. The parameters and the empty host script are the model's
choice (log 3, log 5) and not part of this statement. -/
def Obligations.ResetHoldsTheSpecValues : Prop :=
  (∀ a, State.reset.mem.read a = 0) ∧ (∀ r, readReg r State.reset = 0) ∧ State.reset.pc = 0 ∧ State.reset.stack = [] ∧
  State.reset.status = { state := .running, active := false, cause := .none } ∧ statusWord State.reset.status = 0 ∧
  State.reset.inq = [] ∧ State.reset.outs = [] ∧ enabled State.reset = false

/-- R39, R59, R62, R132: LOAD of an even image of at most 32768 words builds an engine with word i at address i, low byte first,
and every other piece of state at its reset value. That the parameters and the host's further commands stay is the model's
choice (log 14). -/
def Obligations.LoadBuildsEngineFromImage : Prop :=
  ∀ (s : State) (bytes : List Byte) (cs : List HostCmd), s.status.active = false → s.host = .load bytes :: cs →
    bytes.length % 2 = 0 → bytes.length / 2 ≤ 32768 →
    ∃ t, step s = .next t ∧
      (∀ a, (t.mem.read a).toNat = (bytes[2 * a]?.getD 0).toNat + 256 * (bytes[2 * a + 1]?.getD 0).toNat) ∧
      (∀ r, readReg r t = 0) ∧ t.pc = 0 ∧ t.stack = [] ∧
      t.status = { state := .running, active := false, cause := .none } ∧ t.inq = [] ∧ t.outs = [] ∧
      t.params = s.params ∧ t.host = cs

/-- R60, R61, R120: LOAD fails for an odd byte count and for more than 32768 words, construction from words for more than 32768
of them, and neither for anything else. -/
def Obligations.LoadFailsExactlyOnBadImages : Prop :=
  (∀ (s : State) (bytes : List Byte) (cs : List HostCmd), s.status.active = false → s.host = .load bytes :: cs →
    (step s = .fault .formatError ↔ bytes.length % 2 = 1 ∨ bytes.length / 2 > 32768)) ∧
  ∀ (p : Params) (ws : List Word), construct p ws = .error .formatError ↔ ws.length > 32768

/-- R133: RUN by the engine state it finds. R133 and R136 say of RUN during a run only that the host cannot issue it and that it has
no move; that the model refuses it as hostDuringRun is the model's choice (log 13). -/
def Obligations.RunActsByEngineState : Prop :=
  (∀ s : State, s.status.active = true → hostDo .run s = .refused .hostDuringRun) ∧
  ∀ (s : State) (cs : List HostCmd), s.status.active = false → s.host = .run :: cs →
    (s.status.state = .running ∨ s.status.state = .suspended →
      step s = .next { s with status := { s.status with state := .running, active := true }, host := cs }) ∧
    (s.status.state = .halted → step s = .next { s with host := cs } ∧ runResult s.status = some .halted) ∧
    (s.status.state = .faulted → step s = .next { s with host := cs } ∧ runResult s.status = some (.fault s.status.cause))

/-- R131: ENQ appends one word to the queue and touches nothing else. R131 and R136 say of ENQ during a run or to a full finite queue
only that the host must not issue it and that it has no move; that the model refuses it as hostDuringRun or inputQueueFull is the
model's choice (log 13). -/
def Obligations.EnqAppendsToInputQueue : Prop :=
  (∀ (s : State) (w : Word), s.status.active = true → hostDo (.enq w) s = .refused .hostDuringRun) ∧
  ∀ (s : State) (w : Word) (cs : List HostCmd), s.status.active = false → s.host = .enq w :: cs →
    (s.params.inputQueueCapacity ≠ some s.inq.length → step s = .next { s with inq := s.inq ++ [w], host := cs }) ∧
    (s.params.inputQueueCapacity = some s.inq.length → step s = .refused .inputQueueFull)

/-- R87, R139: without a host command an engine that is not enabled takes no step. That such a step answers the same state is the
model's choice (log 6). -/
def Obligations.IdleEngineStaysAsItIs : Prop :=
  ∀ s : State, enabled s = false → s.host = [] → step s = .next s

/-- R114, R133 (the source's resume idempotence): RUN of an engine suspended at an `in` with the queue still empty suspends again
in the same state. -/
def Obligations.RetryOnEmptyQueueSuspendsAgain : Prop :=
  ∀ (s : State) (a : Dst) (cs : List HostCmd), s.status.state = .suspended → s.status.active = false → s.inq = [] →
    fetchDecode s = .ok (.inp a) → s.host = .run :: cs → RunsTo 2 s { s with host := cs }

/-- R114, R131, R133 (the source's resume correctness): ENQ of one word and RUN consume that word and go past the `in`. -/
def Obligations.ResumeConsumesOneWord : Prop :=
  ∀ (s : State) (a : Dst) (w : Word) (cs : List HostCmd), s.status.state = .suspended → s.status.active = false →
    s.inq = [] → s.params.inputQueueCapacity ≠ some 0 → fetchDecode s = .ok (.inp a) → s.host = .enq w :: .run :: cs →
    ∃ t, RunsTo 3 s t ∧ t.inq = [] ∧ t.pc = s.pc + 2#16 ∧ TargetWritten a w s t ∧ t.stack = s.stack ∧ t.outs = s.outs ∧
      t.status = { s.status with state := .running, active := true } ∧ t.params = s.params ∧ t.host = cs
end

