-- ==== Sys2Proof/Laws/Decode.lean ====
section
/-! SUPPORT. One operand word at a time: what it decodes to, and that decoding and encoding it agree; then the same for taking a
word off a list. -/

namespace Sys2Proof

theorem word_of_reg {w : Word} (h : ¬ w.toNat < 32768) : BitVec.ofNat 16 (32768 + (w.toNat - 32768)) = w := by
  apply BitVec.eq_of_toNat_eq
  simp only [BitVec.toNat_ofNat]
  omega

theorem Src.ofWord_toWord {a : Src} (h : a.wellFormed = true) : Src.ofWord a.toWord = .ok a := by
  cases a with
  | lit w => exact if_pos (of_decide_eq_true h)
  | reg r => revert r; decide

theorem Dst.ofWord_toWord {a : Dst} (h : a.wellFormed = true) : Dst.ofWord a.toWord = .ok a := by
  cases a with
  | mem w => exact if_pos (of_decide_eq_true h)
  | reg r => revert r; decide

theorem Src.of_ofWord {w : Word} {a : Src} (h : Src.ofWord w = .ok a) : a.wellFormed = true ∧ a.toWord = w := by
  unfold Src.ofWord at h
  split at h
  · cases h; exact ⟨by simpa [Src.wellFormed], rfl⟩
  · split at h
    · cases h; exact ⟨rfl, word_of_reg ‹_›⟩
    · cases h

theorem Dst.of_ofWord {w : Word} {a : Dst} (h : Dst.ofWord w = .ok a) : a.wellFormed = true ∧ a.toWord = w := by
  unfold Dst.ofWord at h
  split at h
  · cases h; exact ⟨by simpa [Dst.wellFormed], rfl⟩
  · split at h
    · cases h; exact ⟨rfl, word_of_reg ‹_›⟩
    · cases h

/-- An operand word below 32776 has a value form. -/
theorem Src.ofWord_ok {w : Word} (h : w.toNat < 32776) : ∃ a, Src.ofWord w = .ok a := by
  by_cases h' : w.toNat < 32768 <;> simp [Src.ofWord, h, h']

theorem Dst.ofWord_ok {w : Word} (h : w.toNat < 32776) : ∃ a, Dst.ofWord w = .ok a := by
  by_cases h' : w.toNat < 32768 <;> simp [Dst.ofWord, h, h']

theorem Src.ofWord_invalid {w : Word} (h : 32776 ≤ w.toNat) : Src.ofWord w = .error .invalidOperand := by
  rw [Src.ofWord, if_neg (by omega), dif_neg (by omega)]

theorem Dst.ofWord_invalid {w : Word} (h : 32776 ≤ w.toNat) : Dst.ofWord w = .error .invalidOperand := by
  rw [Dst.ofWord, if_neg (by omega), dif_neg (by omega)]

theorem takeSrc_toWord {a : Src} (h : a.wellFormed = true) (rest : List Word) :
    takeSrc (a.toWord :: rest) = .ok (a, rest) := by
  simp [takeSrc, Src.ofWord_toWord h, Except.bind]

theorem takeDst_toWord {a : Dst} (h : a.wellFormed = true) (rest : List Word) :
    takeDst (a.toWord :: rest) = .ok (a, rest) := by
  simp [takeDst, Dst.ofWord_toWord h, Except.bind]

theorem of_takeSrc {ws rest : List Word} {a : Src} (h : takeSrc ws = .ok (a, rest)) :
    a.wellFormed = true ∧ ws = a.toWord :: rest := by
  cases ws with
  | nil => cases h
  | cons w ws =>
    cases ha : Src.ofWord w with
    | error e => simp [takeSrc, ha, Except.bind] at h
    | ok b =>
      simp only [takeSrc, ha, Except.bind, Except.ok.injEq, Prod.mk.injEq] at h
      obtain ⟨rfl, rfl⟩ := h
      exact ⟨(Src.of_ofWord ha).1, by rw [(Src.of_ofWord ha).2]⟩

theorem of_takeDst {ws rest : List Word} {a : Dst} (h : takeDst ws = .ok (a, rest)) :
    a.wellFormed = true ∧ ws = a.toWord :: rest := by
  cases ws with
  | nil => cases h
  | cons w ws =>
    cases ha : Dst.ofWord w with
    | error e => simp [takeDst, ha, Except.bind] at h
    | ok b =>
      simp only [takeDst, ha, Except.bind, Except.ok.injEq, Prod.mk.injEq] at h
      obtain ⟨rfl, rfl⟩ := h
      exact ⟨(Dst.of_ofWord ha).1, by rw [(Dst.of_ofWord ha).2]⟩

/-! ### Formats: what a decoded format was -/

theorem of_decodeV {mk : Src → Instr} {ws rest : List Word} {i : Instr} (h : decodeV mk ws = .ok (i, rest)) :
    ∃ a, i = mk a ∧ a.wellFormed = true ∧ ws = a.toWord :: rest := by
  cases ha : takeSrc ws with
  | error e => simp [decodeV, ha, Except.bind] at h
  | ok p =>
    obtain ⟨a, r⟩ := p
    simp only [decodeV, ha, Except.bind, Except.ok.injEq, Prod.mk.injEq] at h
    obtain ⟨rfl, rfl⟩ := h
    exact ⟨a, rfl, of_takeSrc ha⟩

theorem of_decodeT {mk : Dst → Instr} {ws rest : List Word} {i : Instr} (h : decodeT mk ws = .ok (i, rest)) :
    ∃ a, i = mk a ∧ a.wellFormed = true ∧ ws = a.toWord :: rest := by
  cases ha : takeDst ws with
  | error e => simp [decodeT, ha, Except.bind] at h
  | ok p =>
    obtain ⟨a, r⟩ := p
    simp only [decodeT, ha, Except.bind, Except.ok.injEq, Prod.mk.injEq] at h
    obtain ⟨rfl, rfl⟩ := h
    exact ⟨a, rfl, of_takeDst ha⟩

theorem of_decodeTV {mk : Dst → Src → Instr} {ws rest : List Word} {i : Instr} (h : decodeTV mk ws = .ok (i, rest)) :
    ∃ a b, i = mk a b ∧ a.wellFormed = true ∧ b.wellFormed = true ∧ ws = a.toWord :: b.toWord :: rest := by
  cases ha : takeDst ws with
  | error e => simp [decodeTV, ha, Except.bind] at h
  | ok p =>
    obtain ⟨a, r⟩ := p
    simp only [decodeTV, ha, Except.bind] at h
    obtain ⟨b, rfl, hb, rfl⟩ := of_decodeV (mk := mk a) h
    obtain ⟨h1, rfl⟩ := of_takeDst ha
    exact ⟨a, b, rfl, h1, hb, rfl⟩

theorem of_decodeVV {mk : Src → Src → Instr} {ws rest : List Word} {i : Instr} (h : decodeVV mk ws = .ok (i, rest)) :
    ∃ a b, i = mk a b ∧ a.wellFormed = true ∧ b.wellFormed = true ∧ ws = a.toWord :: b.toWord :: rest := by
  cases ha : takeSrc ws with
  | error e => simp [decodeVV, ha, Except.bind] at h
  | ok p =>
    obtain ⟨a, r⟩ := p
    simp only [decodeVV, ha, Except.bind] at h
    obtain ⟨b, rfl, hb, rfl⟩ := of_decodeV (mk := mk a) h
    obtain ⟨h1, rfl⟩ := of_takeSrc ha
    exact ⟨a, b, rfl, h1, hb, rfl⟩

theorem of_decodeTVV {mk : Dst → Src → Src → Instr} {ws rest : List Word} {i : Instr}
    (h : decodeTVV mk ws = .ok (i, rest)) :
    ∃ a b c, i = mk a b c ∧ a.wellFormed = true ∧ b.wellFormed = true ∧ c.wellFormed = true ∧
      ws = a.toWord :: b.toWord :: c.toWord :: rest := by
  cases ha : takeDst ws with
  | error e => simp [decodeTVV, ha, Except.bind] at h
  | ok p =>
    obtain ⟨a, r⟩ := p
    simp only [decodeTVV, ha, Except.bind] at h
    obtain ⟨b, c, rfl, hb, hc, rfl⟩ := of_decodeVV (mk := mk a) h
    obtain ⟨h1, rfl⟩ := of_takeDst ha
    exact ⟨a, b, c, rfl, h1, hb, hc, rfl⟩

/-! ### The first operand word that does not decode -/

/-- Slot `k` of the operand words (counted from 0) is the first that does not decode, for the reason `e`
(60_exceptions.md R124). -/
def SlotError (ws : List Word) (k : Nat) (e : DecodeError) : Prop :=
  (∀ j, j < k → ∃ w, ws[j]? = some w ∧ w.toNat < 32776) ∧
  ((ws[k]? = none ∧ e = .truncated) ∨ ∃ w, ws[k]? = some w ∧ 32776 ≤ w.toNat ∧ e = .invalidOperand)

theorem takeSrc_of_slotError {ws : List Word} {e : DecodeError} (h : SlotError ws 0 e) : takeSrc ws = .error e := by
  rcases h with ⟨-, ⟨h0, rfl⟩ | ⟨w, h0, hw, rfl⟩⟩ <;> cases ws <;> simp at h0
  · rfl
  · subst h0; simp [takeSrc, Src.ofWord_invalid hw, Except.bind]

theorem takeDst_of_slotError {ws : List Word} {e : DecodeError} (h : SlotError ws 0 e) : takeDst ws = .error e := by
  rcases h with ⟨-, ⟨h0, rfl⟩ | ⟨w, h0, hw, rfl⟩⟩ <;> cases ws <;> simp at h0
  · rfl
  · subst h0; simp [takeDst, Dst.ofWord_invalid hw, Except.bind]

theorem slotError_tail {ws : List Word} {k : Nat} {e : DecodeError} (h : SlotError ws (k + 1) e) :
    ∃ w r, ws = w :: r ∧ w.toNat < 32776 ∧ SlotError r k e := by
  cases ws with
  | nil => obtain ⟨w, hw, _⟩ := h.1 0 (by omega); simp at hw
  | cons w r =>
    obtain ⟨w', hw, hl⟩ := h.1 0 (by omega)
    simp only [List.getElem?_cons_zero, Option.some.injEq] at hw
    subst hw
    exact ⟨w, r, rfl, hl, fun j hj => by simpa using h.1 (j + 1) (by omega), by simpa using h.2⟩

theorem takeSrc_before_slotError {ws : List Word} {k : Nat} {e : DecodeError} (h : SlotError ws (k + 1) e) :
    ∃ a r, takeSrc ws = .ok (a, r) ∧ SlotError r k e := by
  obtain ⟨w, r, rfl, hl, h⟩ := slotError_tail h
  obtain ⟨a, ha⟩ := Src.ofWord_ok hl
  exact ⟨a, r, by simp [takeSrc, ha, Except.bind], h⟩

theorem takeDst_before_slotError {ws : List Word} {k : Nat} {e : DecodeError} (h : SlotError ws (k + 1) e) :
    ∃ a r, takeDst ws = .ok (a, r) ∧ SlotError r k e := by
  obtain ⟨w, r, rfl, hl, h⟩ := slotError_tail h
  obtain ⟨a, ha⟩ := Dst.ofWord_ok hl
  exact ⟨a, r, by simp [takeDst, ha, Except.bind], h⟩

theorem decodeV_of_slotError {mk : Src → Instr} {ws : List Word} {k : Nat} {e : DecodeError} (h : SlotError ws k e)
    (hk : k < 1) : decodeV mk ws = .error e := by
  obtain rfl : k = 0 := by omega
  simp [decodeV, takeSrc_of_slotError h, Except.bind]

theorem decodeT_of_slotError {mk : Dst → Instr} {ws : List Word} {k : Nat} {e : DecodeError} (h : SlotError ws k e)
    (hk : k < 1) : decodeT mk ws = .error e := by
  obtain rfl : k = 0 := by omega
  simp [decodeT, takeDst_of_slotError h, Except.bind]

theorem decodeVV_of_slotError {mk : Src → Src → Instr} {ws : List Word} {k : Nat} {e : DecodeError}
    (h : SlotError ws k e) (hk : k < 2) : decodeVV mk ws = .error e := by
  cases k with
  | zero => simp [decodeVV, takeSrc_of_slotError h, Except.bind]
  | succ k =>
    obtain ⟨a, r, ha, h⟩ := takeSrc_before_slotError h
    simp only [decodeVV, ha]
    exact decodeV_of_slotError (mk := mk a) h (by omega)

theorem decodeTV_of_slotError {mk : Dst → Src → Instr} {ws : List Word} {k : Nat} {e : DecodeError}
    (h : SlotError ws k e) (hk : k < 2) : decodeTV mk ws = .error e := by
  cases k with
  | zero => simp [decodeTV, takeDst_of_slotError h, Except.bind]
  | succ k =>
    obtain ⟨a, r, ha, h⟩ := takeDst_before_slotError h
    simp only [decodeTV, ha]
    exact decodeV_of_slotError (mk := mk a) h (by omega)

theorem decodeTVV_of_slotError {mk : Dst → Src → Src → Instr} {ws : List Word} {k : Nat} {e : DecodeError}
    (h : SlotError ws k e) (hk : k < 3) : decodeTVV mk ws = .error e := by
  cases k with
  | zero => simp [decodeTVV, takeDst_of_slotError h, Except.bind]
  | succ k =>
    obtain ⟨a, r, ha, h⟩ := takeDst_before_slotError h
    simp only [decodeTVV, ha]
    exact decodeVV_of_slotError (mk := mk a) h (by omega)

theorem decodeOperands_of_slotError {op n : Nat} {ws : List Word} {k : Nat} {e : DecodeError}
    (ho : opcodeWidth op = some n) (hk : k + 1 < n) (h : SlotError ws k e) : decodeOperands op ws = .error e := by
  simp only [opcodeWidth] at ho
  split at ho <;> cases ho <;> try simp only [decodeOperands]
  all_goals first
    | omega
    | exact decodeV_of_slotError h (by omega)
    | exact decodeT_of_slotError h (by omega)
    | exact decodeTV_of_slotError h (by omega)
    | exact decodeVV_of_slotError h (by omega)
    | exact decodeTVV_of_slotError h (by omega)

theorem decodeOperands_illegal {op : Nat} {ws : List Word} (h : 22 ≤ op) : decodeOperands op ws = .error .invalidOpcode := by
  unfold decodeOperands
  split <;> first | omega | rfl

end Sys2Proof
end

