-- ==== Sys2Proof/Laws/Assembler.lean ====
section
/-! SUPPORT. Splitting a word sequence at its opcode words (spec/30_encoding.md rule R81), and what raw lines assemble to. -/

namespace Sys2Proof.Machine

/-- A legal opcode word has a width, of one to four words (30_encoding.md R71, R72). -/
theorem opcodeWidth_legal {op : Nat} (h : op ≤ 21) : ∃ k, opcodeWidth op = some k ∧ 1 ≤ k ∧ k ≤ 4 := by
  have : ∀ j : Fin 22, ∃ k, opcodeWidth j.val = some k ∧ 1 ≤ k ∧ k ≤ 4 := by
    intro j; revert j; decide
  exact this ⟨op, by omega⟩

theorem opcodeWidth_illegal {op : Nat} (h : 22 ≤ op) : opcodeWidth op = none := by
  unfold opcodeWidth
  split <;> first | omega | rfl

/-- Every opcode word takes at least itself. -/
theorem wordsTaken_pos (op : Word) : 1 ≤ wordsTaken op := by
  by_cases h : op.toNat ≤ 21
  · obtain ⟨k, e, hk, _⟩ := opcodeWidth_legal h
    simpa [wordsTaken, e] using hk
  · simp [wordsTaken, opcodeWidth_illegal (by omega : 22 ≤ op.toNat)]

@[simp] theorem splitCode_nil (n : Nat) : splitCode n [] = [] := by cases n <;> rfl

/-- Splitting loses no word and adds none. -/
theorem flatten_splitCode (n : Nat) (ws : List Word) (h : ws.length ≤ n) : (splitCode n ws).flatten = ws := by
  induction n generalizing ws with
  | zero => simp [List.eq_nil_of_length_eq_zero (by omega : ws.length = 0), splitCode]
  | succ n ih =>
    cases ws with
    | nil => rfl
    | cons op ws =>
      have := wordsTaken_pos op
      rw [splitCode, List.flatten_cons, ih _ (by simp at h ⊢; omega), List.take_append_drop]

theorem disassemble_cons (n : Nat) (op : Word) (ws : List Word) :
    disassemble (n + 1) (op :: ws) =
      codeLines ((op :: ws).take (wordsTaken op)) ++ disassemble n ((op :: ws).drop (wordsTaken op)) := by
  simp [disassemble, splitCode]

/-- Lines assemble one after another. -/
theorem lineWords_append {table : List (String × Nat)} {l m : List AsmLine} {u v : List Word}
    (hl : lineWords table l = some u) (hm : lineWords table m = some v) : lineWords table (l ++ m) = some (u ++ v) := by
  induction l generalizing u with
  | nil => cases hl; simpa using hm
  | cons x l ih =>
    cases hx : x.words table <;> cases hr : lineWords table l <;> simp [lineWords, hx, hr] at hl
    subst hl
    simp [lineWords, hx, ih hr, List.append_assoc]

/-- Raw words assemble to themselves. -/
theorem lineWords_raw (table : List (String × Nat)) (ws : List Word) :
    lineWords table (ws.map fun w => .word w.toNat) = some ws := by
  induction ws with
  | nil => rfl
  | cons w ws ih => simp [lineWords, AsmLine.words, ih, w.isLt]

/-- A written operand is the operand's word under every label table. -/
theorem asmSrc_toWord {a : Src} (h : a.wellFormed = true) (table : List (String × Nat)) :
    (asmSrc a).toWord table = some a.toWord := by
  cases a with
  | lit w => simp [asmSrc, AsmOperand.toWord, literalWord, (of_decide_eq_true h : w.toNat < 32768), Src.toWord]
  | reg r => rfl

theorem asmDst_toWord {a : Dst} (h : a.wellFormed = true) (table : List (String × Nat)) :
    (asmDst a).toWord table = some a.toWord := by
  cases a with
  | mem w => simp [asmDst, AsmOperand.toWord, literalWord, (of_decide_eq_true h : w.toNat < 32768), Dst.toWord]
  | reg r => rfl

end Sys2Proof.Machine
end

