-- ==== Sys2Proof/Laws/State.lean ====
section
/-! SUPPORT. One lemma per field per update of State, so that no proof unfolds a record update. -/

namespace Sys2Proof.Machine

@[simp] theorem State.setMem_mem (s : State) (m : Memory) : (s.setMem m).mem = m := rfl
@[simp] theorem State.setMem_regs (s : State) (m : Memory) : (s.setMem m).regs = s.regs := rfl
@[simp] theorem State.setMem_pc (s : State) (m : Memory) : (s.setMem m).pc = s.pc := rfl
@[simp] theorem State.setMem_stack (s : State) (m : Memory) : (s.setMem m).stack = s.stack := rfl
@[simp] theorem State.setMem_status (s : State) (m : Memory) : (s.setMem m).status = s.status := rfl
@[simp] theorem State.setMem_inq (s : State) (m : Memory) : (s.setMem m).inq = s.inq := rfl
@[simp] theorem State.setMem_outs (s : State) (m : Memory) : (s.setMem m).outs = s.outs := rfl
@[simp] theorem State.setMem_params (s : State) (m : Memory) : (s.setMem m).params = s.params := rfl
@[simp] theorem State.setMem_host (s : State) (m : Memory) : (s.setMem m).host = s.host := rfl

@[simp] theorem State.setRegs_mem (s : State) (x : Vector Word 8) : (s.setRegs x).mem = s.mem := rfl
@[simp] theorem State.setRegs_regs (s : State) (x : Vector Word 8) : (s.setRegs x).regs = x := rfl
@[simp] theorem State.setRegs_pc (s : State) (x : Vector Word 8) : (s.setRegs x).pc = s.pc := rfl
@[simp] theorem State.setRegs_stack (s : State) (x : Vector Word 8) : (s.setRegs x).stack = s.stack := rfl
@[simp] theorem State.setRegs_status (s : State) (x : Vector Word 8) : (s.setRegs x).status = s.status := rfl
@[simp] theorem State.setRegs_inq (s : State) (x : Vector Word 8) : (s.setRegs x).inq = s.inq := rfl
@[simp] theorem State.setRegs_outs (s : State) (x : Vector Word 8) : (s.setRegs x).outs = s.outs := rfl
@[simp] theorem State.setRegs_params (s : State) (x : Vector Word 8) : (s.setRegs x).params = s.params := rfl
@[simp] theorem State.setRegs_host (s : State) (x : Vector Word 8) : (s.setRegs x).host = s.host := rfl

@[simp] theorem State.setPc_mem (s : State) (p : Word) : (s.setPc p).mem = s.mem := rfl
@[simp] theorem State.setPc_regs (s : State) (p : Word) : (s.setPc p).regs = s.regs := rfl
@[simp] theorem State.setPc_pc (s : State) (p : Word) : (s.setPc p).pc = p := rfl
@[simp] theorem State.setPc_stack (s : State) (p : Word) : (s.setPc p).stack = s.stack := rfl
@[simp] theorem State.setPc_status (s : State) (p : Word) : (s.setPc p).status = s.status := rfl
@[simp] theorem State.setPc_inq (s : State) (p : Word) : (s.setPc p).inq = s.inq := rfl
@[simp] theorem State.setPc_outs (s : State) (p : Word) : (s.setPc p).outs = s.outs := rfl
@[simp] theorem State.setPc_params (s : State) (p : Word) : (s.setPc p).params = s.params := rfl
@[simp] theorem State.setPc_host (s : State) (p : Word) : (s.setPc p).host = s.host := rfl

@[simp] theorem State.setStack_mem (s : State) (st : List Word) : (s.setStack st).mem = s.mem := rfl
@[simp] theorem State.setStack_regs (s : State) (st : List Word) : (s.setStack st).regs = s.regs := rfl
@[simp] theorem State.setStack_pc (s : State) (st : List Word) : (s.setStack st).pc = s.pc := rfl
@[simp] theorem State.setStack_stack (s : State) (st : List Word) : (s.setStack st).stack = st := rfl
@[simp] theorem State.setStack_status (s : State) (st : List Word) : (s.setStack st).status = s.status := rfl
@[simp] theorem State.setStack_inq (s : State) (st : List Word) : (s.setStack st).inq = s.inq := rfl
@[simp] theorem State.setStack_outs (s : State) (st : List Word) : (s.setStack st).outs = s.outs := rfl
@[simp] theorem State.setStack_params (s : State) (st : List Word) : (s.setStack st).params = s.params := rfl
@[simp] theorem State.setStack_host (s : State) (st : List Word) : (s.setStack st).host = s.host := rfl

@[simp] theorem State.setStatus_mem (s : State) (x : Status) : (s.setStatus x).mem = s.mem := rfl
@[simp] theorem State.setStatus_regs (s : State) (x : Status) : (s.setStatus x).regs = s.regs := rfl
@[simp] theorem State.setStatus_pc (s : State) (x : Status) : (s.setStatus x).pc = s.pc := rfl
@[simp] theorem State.setStatus_stack (s : State) (x : Status) : (s.setStatus x).stack = s.stack := rfl
@[simp] theorem State.setStatus_status (s : State) (x : Status) : (s.setStatus x).status = x := rfl
@[simp] theorem State.setStatus_inq (s : State) (x : Status) : (s.setStatus x).inq = s.inq := rfl
@[simp] theorem State.setStatus_outs (s : State) (x : Status) : (s.setStatus x).outs = s.outs := rfl
@[simp] theorem State.setStatus_params (s : State) (x : Status) : (s.setStatus x).params = s.params := rfl
@[simp] theorem State.setStatus_host (s : State) (x : Status) : (s.setStatus x).host = s.host := rfl

@[simp] theorem State.setInq_mem (s : State) (q : List Word) : (s.setInq q).mem = s.mem := rfl
@[simp] theorem State.setInq_regs (s : State) (q : List Word) : (s.setInq q).regs = s.regs := rfl
@[simp] theorem State.setInq_pc (s : State) (q : List Word) : (s.setInq q).pc = s.pc := rfl
@[simp] theorem State.setInq_stack (s : State) (q : List Word) : (s.setInq q).stack = s.stack := rfl
@[simp] theorem State.setInq_status (s : State) (q : List Word) : (s.setInq q).status = s.status := rfl
@[simp] theorem State.setInq_inq (s : State) (q : List Word) : (s.setInq q).inq = q := rfl
@[simp] theorem State.setInq_outs (s : State) (q : List Word) : (s.setInq q).outs = s.outs := rfl
@[simp] theorem State.setInq_params (s : State) (q : List Word) : (s.setInq q).params = s.params := rfl
@[simp] theorem State.setInq_host (s : State) (q : List Word) : (s.setInq q).host = s.host := rfl

@[simp] theorem State.setOuts_mem (s : State) (o : List Byte) : (s.setOuts o).mem = s.mem := rfl
@[simp] theorem State.setOuts_regs (s : State) (o : List Byte) : (s.setOuts o).regs = s.regs := rfl
@[simp] theorem State.setOuts_pc (s : State) (o : List Byte) : (s.setOuts o).pc = s.pc := rfl
@[simp] theorem State.setOuts_stack (s : State) (o : List Byte) : (s.setOuts o).stack = s.stack := rfl
@[simp] theorem State.setOuts_status (s : State) (o : List Byte) : (s.setOuts o).status = s.status := rfl
@[simp] theorem State.setOuts_inq (s : State) (o : List Byte) : (s.setOuts o).inq = s.inq := rfl
@[simp] theorem State.setOuts_outs (s : State) (o : List Byte) : (s.setOuts o).outs = o := rfl
@[simp] theorem State.setOuts_params (s : State) (o : List Byte) : (s.setOuts o).params = s.params := rfl
@[simp] theorem State.setOuts_host (s : State) (o : List Byte) : (s.setOuts o).host = s.host := rfl

@[simp] theorem State.setHost_mem (s : State) (h : List HostCmd) : (s.setHost h).mem = s.mem := rfl
@[simp] theorem State.setHost_regs (s : State) (h : List HostCmd) : (s.setHost h).regs = s.regs := rfl
@[simp] theorem State.setHost_pc (s : State) (h : List HostCmd) : (s.setHost h).pc = s.pc := rfl
@[simp] theorem State.setHost_stack (s : State) (h : List HostCmd) : (s.setHost h).stack = s.stack := rfl
@[simp] theorem State.setHost_status (s : State) (h : List HostCmd) : (s.setHost h).status = s.status := rfl
@[simp] theorem State.setHost_inq (s : State) (h : List HostCmd) : (s.setHost h).inq = s.inq := rfl
@[simp] theorem State.setHost_outs (s : State) (h : List HostCmd) : (s.setHost h).outs = s.outs := rfl
@[simp] theorem State.setHost_params (s : State) (h : List HostCmd) : (s.setHost h).params = s.params := rfl
@[simp] theorem State.setHost_host (s : State) (h : List HostCmd) : (s.setHost h).host = h := rfl

end Sys2Proof.Machine
end

