-- ==== Sys2Proof/Laws/Memory.lean ====
section
/-! SUPPORT. The laws of the memory: a read after a write, the canonical form and its uniqueness, the image of a program,
the words that a fetch sees. -/

namespace Sys2Proof.Machine

/-! ### Reading and writing -/

@[simp] theorem Memory.read_nil (a : Nat) : Memory.read [] a = 0 := rfl

theorem Memory.read_cons (k a : Nat) (v : Word) (m : Memory) :
    Memory.read ((k, v) :: m) a = if k = a then v else Memory.read m a := rfl

theorem Memory.read_erase (m : Memory) (a b : Nat) :
    Memory.read (m.filter fun c => c.1 != a) b = if b = a then 0 else m.read b := by
  induction m with
  | nil => simp
  | cons c m ih =>
    obtain ⟨k, v⟩ := c
    by_cases hk : k = a
    · subst hk
      simp only [List.filter_cons, bne_self_eq_false, Bool.false_eq_true, if_false, ih, Memory.read_cons]
      by_cases hb : b = k <;> simp [hb, eq_comm]
    · simp only [List.filter_cons, bne_iff_ne, ne_eq, hk, not_false_eq_true, if_true, Memory.read_cons, ih]
      by_cases hb : k = b
      · subst hb; simp [hk]
      · simp [hb]

theorem Memory.read_insert (m : Memory) (a b : Nat) (v : Word) (h : ∀ c ∈ m, c.1 ≠ a) :
    Memory.read (Memory.insert a v m) b = if b = a then v else m.read b := by
  induction m with
  | nil => simp [Memory.insert, Memory.read_cons, eq_comm]
  | cons c m ih =>
    obtain ⟨k, u⟩ := c
    have hk : k ≠ a := h _ List.mem_cons_self
    have ih := ih fun c hc => h c (List.mem_cons_of_mem _ hc)
    by_cases hlt : a < k
    · simp [Memory.insert, hlt, Memory.read_cons, eq_comm]
    · simp only [Memory.insert, hlt, if_false, Memory.read_cons, ih]
      by_cases hb : k = b
      · subst hb; simp [hk]
      · simp [hb]

/-- A read after a write, at every address of every memory. -/
theorem Memory.read_write (m : Memory) (a b : Nat) (v : Word) :
    (m.write a v).read b = if b = a then v else m.read b := by
  unfold Memory.write
  by_cases hv : v = 0#16
  · simp [hv, Memory.read_erase]
  · simp only [hv, if_false]
    rw [Memory.read_insert _ _ _ _ (by simp), Memory.read_erase]
    by_cases hb : b = a <;> simp [hb]

/-! ### The canonical form -/

theorem Memory.wfFrom_mono {m : Memory} {lo lo' : Nat} (h : m.wfFrom lo = true) (hle : lo' ≤ lo) :
    m.wfFrom lo' = true := by
  cases m with
  | nil => rfl
  | cons c m =>
    obtain ⟨k, v⟩ := c
    simp only [Memory.wfFrom, Bool.and_eq_true, decide_eq_true_eq] at h ⊢
    exact ⟨⟨⟨by omega, h.1.1.2⟩, h.1.2⟩, h.2⟩

theorem Memory.wfFrom_erase {m : Memory} {lo : Nat} (a : Nat) (h : m.wfFrom lo = true) :
    Memory.wfFrom lo (m.filter fun c => c.1 != a) = true := by
  induction m generalizing lo with
  | nil => rfl
  | cons c m ih =>
    obtain ⟨k, v⟩ := c
    simp only [Memory.wfFrom, Bool.and_eq_true, decide_eq_true_eq] at h
    by_cases hk : k = a
    · simp only [hk, List.filter_cons, bne_self_eq_false, Bool.false_eq_true, if_false]
      exact ih (Memory.wfFrom_mono h.2 (by omega))
    · simp only [List.filter_cons, bne_iff_ne, ne_eq, hk, not_false_eq_true, if_true, Memory.wfFrom, Bool.and_eq_true,
        decide_eq_true_eq]
      exact ⟨⟨⟨h.1.1.1, h.1.1.2⟩, h.1.2⟩, ih h.2⟩

theorem Memory.wfFrom_insert {m : Memory} {lo a : Nat} {v : Word} (h : m.wfFrom lo = true) (hne : ∀ c ∈ m, c.1 ≠ a)
    (hlo : lo ≤ a) (ha : a < 32768) (hv : v ≠ 0#16) : Memory.wfFrom lo (Memory.insert a v m) = true := by
  induction m generalizing lo with
  | nil => simp [Memory.insert, Memory.wfFrom, hlo, ha, hv]
  | cons c m ih =>
    obtain ⟨k, u⟩ := c
    have hk : k ≠ a := hne _ List.mem_cons_self
    simp only [Memory.wfFrom, Bool.and_eq_true, decide_eq_true_eq] at h
    by_cases hlt : a < k
    · simp only [Memory.insert, hlt, if_true, Memory.wfFrom, Bool.and_eq_true, decide_eq_true_eq]
      exact ⟨⟨⟨hlo, ha⟩, hv⟩, ⟨⟨by omega, h.1.1.2⟩, h.1.2⟩, h.2⟩
    · simp only [Memory.insert, hlt, if_false, Memory.wfFrom, Bool.and_eq_true, decide_eq_true_eq]
      exact ⟨h.1, ih h.2 (fun c hc => hne c (List.mem_cons_of_mem _ hc)) (by omega)⟩

/-- A write inside the address space keeps the canonical form. -/
theorem Memory.wf_write {m : Memory} (a : Nat) (v : Word) (h : m.wf = true) (ha : a < 32768) :
    (m.write a v).wf = true := by
  unfold Memory.wf Memory.write
  by_cases hv : v = 0#16
  · simpa [hv] using Memory.wfFrom_erase a h
  · simp only [hv, if_false]
    exact Memory.wfFrom_insert (Memory.wfFrom_erase a h) (by simp) (Nat.zero_le a) ha hv

theorem Memory.read_below {m : Memory} {lo a : Nat} (h : m.wfFrom lo = true) (ha : a < lo) : m.read a = 0 := by
  induction m generalizing lo with
  | nil => rfl
  | cons c m ih =>
    obtain ⟨k, v⟩ := c
    simp only [Memory.wfFrom, Bool.and_eq_true, decide_eq_true_eq] at h
    rw [Memory.read_cons, if_neg (by omega)]
    exact ih h.2 (by omega)

/-- In canonical form, memories that read alike are equal data. -/
theorem Memory.eq_of_read_eq {m m' : Memory} {lo : Nat} (h : m.wfFrom lo = true) (h' : m'.wfFrom lo = true)
    (hr : ∀ a, m.read a = m'.read a) : m = m' := by
  induction m generalizing m' lo with
  | nil =>
    cases m' with
    | nil => rfl
    | cons c m' =>
      obtain ⟨k, v⟩ := c
      simp only [Memory.wfFrom, Bool.and_eq_true, decide_eq_true_eq] at h'
      exact absurd (by simpa [Memory.read_cons] using (hr k).symm) h'.1.2
  | cons c m ih =>
    obtain ⟨k, v⟩ := c
    cases m' with
    | nil =>
      simp only [Memory.wfFrom, Bool.and_eq_true, decide_eq_true_eq] at h
      exact absurd (by simpa [Memory.read_cons] using hr k) h.1.2
    | cons c' m' =>
      obtain ⟨k', v'⟩ := c'
      simp only [Memory.wfFrom, Bool.and_eq_true, decide_eq_true_eq] at h h'
      have hk : k = k' := by
        by_contra hne
        rcases Nat.lt_or_gt_of_ne hne with hlt | hlt
        · have := hr k
          rw [Memory.read_cons, if_pos rfl, Memory.read_cons, if_neg (by omega), Memory.read_below h'.2 (by omega)] at this
          exact h.1.2 this
        · have := hr k'
          rw [Memory.read_cons, if_neg (by omega), Memory.read_below h.2 (by omega), Memory.read_cons, if_pos rfl] at this
          exact h'.1.2 this.symm
      subst hk
      have hv : v = v' := by simpa [Memory.read_cons] using hr k
      subst hv
      have hm : m = m' := ih h.2 h'.2 fun a => by
        by_cases ha : k = a
        · subst ha
          rw [Memory.read_below h.2 (by omega), Memory.read_below h'.2 (by omega)]
        · simpa [Memory.read_cons, ha] using hr a
      rw [hm]

/-! ### The image of a program -/

theorem read_imageFrom (ws : List Word) (lo a : Nat) :
    (imageFrom lo ws).read a = if lo ≤ a then ws[a - lo]?.getD 0 else 0 := by
  induction ws generalizing lo with
  | nil => simp [imageFrom]
  | cons w ws ih =>
    have key : (imageFrom lo (w :: ws)).read a = if lo = a then w else (imageFrom (lo + 1) ws).read a := by
      by_cases hw : w = 0#16
      · subst hw
        by_cases ha : lo = a
        · subst ha; simp [imageFrom, ih]
        · simp [imageFrom, ha]
      · simp [imageFrom, hw, Memory.read_cons]
    rw [key, ih]
    by_cases ha : lo = a
    · subst ha; simp
    · by_cases hle : lo ≤ a
      · have : a - lo = (a - (lo + 1)) + 1 := by omega
        rw [if_neg ha, if_pos hle, if_pos (by omega), this]; simp
      · rw [if_neg ha, if_neg hle, if_neg (by omega)]

theorem wfFrom_imageFrom (ws : List Word) (lo : Nat) (h : lo + ws.length ≤ 32768) :
    (imageFrom lo ws).wfFrom lo = true := by
  induction ws generalizing lo with
  | nil => rfl
  | cons w ws ih =>
    simp only [List.length_cons] at h
    have := ih (lo + 1) (by omega)
    by_cases hw : w = 0#16
    · simpa [imageFrom, hw] using Memory.wfFrom_mono this (by omega)
    · simp only [imageFrom, hw, if_false, Memory.wfFrom, this, Bool.and_true, Bool.and_eq_true, decide_eq_true_eq]
      exact ⟨⟨le_refl _, by omega⟩, hw⟩

theorem length_pairBytes : ∀ bs : List Byte, (pairBytes bs).length = bs.length / 2
  | [] => rfl
  | [_] => by simp [pairBytes]
  | _ :: _ :: bs => by
    have := length_pairBytes bs
    simp only [pairBytes, List.length_cons, this]; omega

theorem toNat_pairBytes : ∀ (bs : List Byte) (a : Nat), bs.length % 2 = 0 →
    ((pairBytes bs)[a]?.getD 0).toNat = (bs[2 * a]?.getD 0).toNat + 256 * (bs[2 * a + 1]?.getD 0).toNat
  | [], a, _ => by simp [pairBytes]
  | [_], _, h => by simp at h
  | lo :: hi :: bs, 0, _ => by
    have h := BitVec.toNat_append hi lo
    rw [← Nat.shiftLeft_add_eq_or_of_lt lo.isLt, Nat.shiftLeft_eq] at h
    show (hi ++ lo).toNat = _
    simp; omega
  | lo :: hi :: bs, a + 1, h => by
    have := toNat_pairBytes bs a (by simp at h; omega)
    simpa [pairBytes, Nat.mul_add] using this

/-! ### The words a fetch sees -/

theorem getElem?_fetchFrom (m : Memory) (n a k : Nat) :
    (fetchFrom m a n)[k]? = if k < n ∧ a + k < 32768 then some (m.read (a + k)) else none := by
  induction n generalizing a k with
  | zero => simp [fetchFrom]
  | succ n ih =>
    by_cases ha : a < 32768
    · cases k with
      | zero => simp [fetchFrom, ha]
      | succ k =>
        simp only [fetchFrom, ha, if_true, List.getElem?_cons_succ, ih, Nat.add_right_comm a 1 k, Nat.add_assoc a k 1]
        by_cases hk : k < n <;> by_cases h2 : a + (k + 1) < 32768 <;> simp [hk, h2]
    · simp only [fetchFrom, ha, if_false, List.getElem?_nil]
      rw [if_neg (by omega)]

theorem fetchFrom_congr {m m' : Memory} (h : ∀ a, m.read a = m'.read a) (a n : Nat) :
    fetchFrom m a n = fetchFrom m' a n := by
  induction n generalizing a with
  | zero => rfl
  | succ n ih => simp only [fetchFrom, h, ih]

end Sys2Proof.Machine
end

