-- ==== Sys2Proof/Laws/Ops.lean ====
section
/-! SUPPORT. For each shared operation, once, everything it can answer. -/

namespace Sys2Proof.Machine

/-! ### Registers -/

theorem readReg_writeReg (r q : Fin 8) (v : Word) (s : State) :
    readReg q (writeReg r v s) = if q = r then v else readReg q s := by
  simp [readReg, writeReg, Vector.get_eq_getElem, Vector.getElem_set, Fin.ext_iff, eq_comm]

/-! ### Memory accesses -/

theorem memRead_cases (a : Word) (s : State) :
    (a.toNat < 32768 ∧ memRead a s = .ok (s.mem.read a.toNat)) ∨
    (32768 ≤ a.toNat ∧ memRead a s = .error .addressRange) := by
  by_cases h : a.toNat < 32768
  · exact .inl ⟨h, if_pos h⟩
  · exact .inr ⟨by omega, if_neg h⟩

theorem memWrite_cases (a v : Word) (s : State) :
    (a.toNat < 32768 ∧ memWrite a v s = .ok (s.setMem (s.mem.write a.toNat v))) ∨
    (32768 ≤ a.toNat ∧ memWrite a v s = .error .addressRange) := by
  by_cases h : a.toNat < 32768
  · exact .inl ⟨h, if_pos h⟩
  · exact .inr ⟨by omega, if_neg h⟩

/-! ### Targets -/

/-- A target operand names a register or an address inside the memory. -/
def Storable (d : Dst) : Prop := ∀ a, targetAddress d = some a → a < 32768

/-- What WriteTarget leaves for a destination that can be encoded. -/
def putTarget (d : Dst) (v : Word) (s : State) : State :=
  match d with
  | .mem a => s.setMem (s.mem.write a.toNat v)
  | .reg r => writeReg r v s

theorem storable_iff (d : Dst) : Storable d ↔ d.wellFormed = true := by
  cases d <;> simp [Storable, targetAddress, Dst.wellFormed]

theorem writeTarget_cases (d : Dst) (v : Word) (s : State) :
    (Storable d ∧ writeTarget d v s = .ok (putTarget d v s)) ∨
    (¬ Storable d ∧ writeTarget d v s = .error .addressRange) := by
  cases d with
  | reg r => exact .inl ⟨by simp [Storable, targetAddress], rfl⟩
  | mem a =>
    rcases memWrite_cases a v s with ⟨h, e⟩ | ⟨h, e⟩
    · exact .inl ⟨by simpa [Storable, targetAddress] using h, e⟩
    · exact .inr ⟨by simpa [Storable, targetAddress] using h, e⟩

theorem assign_cases (d : Dst) (v : Word) (n : Nat) (s : State) :
    (Storable d ∧ assign d v n s = .ok (advance n (putTarget d v s))) ∨
    (¬ Storable d ∧ assign d v n s = .error .addressRange) := by
  rcases writeTarget_cases d v s with ⟨h, e⟩ | ⟨h, e⟩
  · exact .inl ⟨h, by rw [assign, e]; rfl⟩
  · exact .inr ⟨h, by rw [assign, e]; rfl⟩

theorem assign_wf {d : Dst} (h : d.wellFormed = true) (v : Word) (n : Nat) (s : State) :
    assign d v n s = .ok (advance n (putTarget d v s)) := by
  rcases assign_cases d v n s with ⟨_, e⟩ | ⟨h', _⟩
  · exact e
  · exact absurd ((storable_iff d).2 h) h'

theorem targetWritten_putTarget (d : Dst) (v : Word) (s : State) : TargetWritten d v s (putTarget d v s) := by
  cases d with
  | mem a => exact ⟨fun r => by simp [putTarget, readReg], fun b => by
      simp [putTarget, targetAddress, Memory.read_write, eq_comm]⟩
  | reg r => exact ⟨fun q => by simp [putTarget, readReg_writeReg, eq_comm], fun b => by
      simp [putTarget, targetAddress, writeReg]⟩

@[simp] theorem putTarget_pc (d : Dst) (v : Word) (s : State) : (putTarget d v s).pc = s.pc := by cases d <;> rfl
@[simp] theorem putTarget_stack (d : Dst) (v : Word) (s : State) : (putTarget d v s).stack = s.stack := by cases d <;> rfl
@[simp] theorem putTarget_status (d : Dst) (v : Word) (s : State) : (putTarget d v s).status = s.status := by cases d <;> rfl
@[simp] theorem putTarget_inq (d : Dst) (v : Word) (s : State) : (putTarget d v s).inq = s.inq := by cases d <;> rfl
@[simp] theorem putTarget_outs (d : Dst) (v : Word) (s : State) : (putTarget d v s).outs = s.outs := by cases d <;> rfl
@[simp] theorem putTarget_params (d : Dst) (v : Word) (s : State) : (putTarget d v s).params = s.params := by cases d <;> rfl
@[simp] theorem putTarget_host (d : Dst) (v : Word) (s : State) : (putTarget d v s).host = s.host := by cases d <;> rfl

/-! ### The stack and the queue -/

theorem stackFull_iff (s : State) : stackFull s = true ↔ s.params.stackCapacity = some s.stack.length := by
  simp [stackFull]

theorem push_cases (v : Word) (s : State) :
    (s.params.stackCapacity ≠ some s.stack.length ∧ push v s = .ok (s.setStack (v :: s.stack))) ∨
    (s.params.stackCapacity = some s.stack.length ∧ push v s = .error .stackOverflow) := by
  by_cases h : stackFull s = true
  · exact .inr ⟨(stackFull_iff s).1 h, if_pos h⟩
  · exact .inl ⟨fun e => h ((stackFull_iff s).2 e), if_neg h⟩

theorem pop?_cases (s : State) :
    (s.stack = [] ∧ pop? s = none) ∨ ∃ v st, s.stack = v :: st ∧ pop? s = some (v, s.setStack st) := by
  cases h : s.stack with
  | nil => exact .inl ⟨rfl, by simp [pop?, h]⟩
  | cons v st => exact .inr ⟨v, st, rfl, by simp [pop?, h]⟩

theorem dequeue?_cases (s : State) :
    (s.inq = [] ∧ dequeue? s = none) ∨ ∃ v q, s.inq = v :: q ∧ dequeue? s = some (v, s.setInq q) := by
  cases h : s.inq with
  | nil => exact .inl ⟨rfl, by simp [dequeue?, h]⟩
  | cons v q => exact .inr ⟨v, q, rfl, by simp [dequeue?, h]⟩

/-! ### STATUS and the end of a step -/

theorem enabled_iff (s : State) : enabled s = true ↔ s.status.state = .running ∧ s.status.active = true := by
  simp [enabled]

theorem commit_ok (s t : State) : commit s (.ok t) = .next t := rfl

theorem commit_error (s : State) (c : Cause) : commit s (.error c) = .next (raiseFault c s) := rfl

/-! ### What each operation keeps of the invariant -/

theorem inv_setPc {s : State} (h : Inv s) (p : Word) : Inv (s.setPc p) := ⟨h.mem, h.status, h.stack, h.inq⟩

theorem inv_advance {s : State} (h : Inv s) (n : Nat) : Inv (advance n s) := inv_setPc h _

theorem inv_setOuts {s : State} (h : Inv s) (o : List Byte) : Inv (s.setOuts o) := ⟨h.mem, h.status, h.stack, h.inq⟩

theorem inv_setHost {s : State} (h : Inv s) (c : List HostCmd) : Inv (s.setHost c) := ⟨h.mem, h.status, h.stack, h.inq⟩

theorem inv_setStatus {s : State} (h : Inv s) {x : Status} (hx : x.legal) : Inv (s.setStatus x) :=
  ⟨h.mem, hx, h.stack, h.inq⟩

theorem inv_storeWord {s : State} (h : Inv s) {a : Nat} (v : Word) (ha : a < 32768) :
    Inv (s.setMem (s.mem.write a v)) := ⟨Memory.wf_write a v h.mem ha, h.status, h.stack, h.inq⟩

theorem inv_putTarget {s : State} (h : Inv s) {d : Dst} (v : Word) (hd : Storable d) : Inv (putTarget d v s) := by
  cases d with
  | mem a => exact inv_storeWord h v (hd _ rfl)
  | reg r => exact ⟨h.mem, h.status, h.stack, h.inq⟩

theorem inv_raiseFault {s : State} (h : Inv s) {c : Cause} (hc : c ≠ .none) : Inv (raiseFault c s) :=
  inv_setStatus h ⟨by simp [hc], by simp⟩

theorem inv_popped {s : State} (h : Inv s) {v : Word} {st : List Word} (e : s.stack = v :: st) : Inv (s.setStack st) :=
  ⟨h.mem, h.status, fun c hc => by have := h.stack c hc; simp [e] at this; simp; omega, h.inq⟩

theorem inv_pushed {s : State} (h : Inv s) (v : Word) (hf : s.params.stackCapacity ≠ some s.stack.length) :
    Inv (s.setStack (v :: s.stack)) :=
  ⟨h.mem, h.status, fun c hc => by
    have := h.stack c hc
    have : s.stack.length ≠ c := fun e => hf (by rw [e]; exact hc)
    simp; omega, h.inq⟩

theorem inv_dequeued {s : State} (h : Inv s) {v : Word} {q : List Word} (e : s.inq = v :: q) : Inv (s.setInq q) :=
  ⟨h.mem, h.status, h.stack, fun c hc => by have := h.inq c hc; simp [e] at this; simp; omega⟩

end Sys2Proof.Machine
end

