-- ==== Sys2Proof/Laws/Exec.lean ====
section
/-! SUPPORT. What an instruction can do, said once: it takes a fault, or it has its effect. Every rule about all instructions
follows from `exec_cases` by cases on the instruction. -/

namespace Sys2Proof.Machine

/-- The effect of an instruction that takes no fault, from `s` to `t`. -/
def Effect (i : Instr) (s t : State) : Prop :=
  match i with
  | .halt => t = enterHalted s
  | .set a b => Storable a ∧ t = advance 3 (putTarget a (resolveValue b s) s)
  | .push a => s.params.stackCapacity ≠ some s.stack.length ∧ t = advance 2 (s.setStack (resolveValue a s :: s.stack))
  | .pop a => Storable a ∧ ∃ v st, s.stack = v :: st ∧ t = advance 2 (putTarget a v (s.setStack st))
  | .eq a b c => Storable a ∧ t = advance 4 (putTarget a (eqResult (resolveValue b s) (resolveValue c s)) s)
  | .gt a b c => Storable a ∧ t = advance 4 (putTarget a (gtResult (resolveValue b s) (resolveValue c s)) s)
  | .jmp a => t = s.setPc (resolveValue a s)
  | .jt a b => t = if wordIsTrue (resolveValue a s) then s.setPc (resolveValue b s) else advance 3 s
  | .jf a b => t = if wordIsTrue (resolveValue a s) then advance 3 s else s.setPc (resolveValue b s)
  | .add a b c => Storable a ∧ t = advance 4 (putTarget a (aluAdd (resolveValue b s) (resolveValue c s)) s)
  | .mult a b c => Storable a ∧ t = advance 4 (putTarget a (aluMult (resolveValue b s) (resolveValue c s)) s)
  | .mod a b c => Storable a ∧ ∃ v, aluMod (resolveValue b s) (resolveValue c s) = .ok v ∧ t = advance 4 (putTarget a v s)
  | .and a b c => Storable a ∧
      t = advance 4 (putTarget a (aluAnd s.params.andOrWide (resolveValue b s) (resolveValue c s)) s)
  | .or a b c => Storable a ∧
      t = advance 4 (putTarget a (aluOr s.params.andOrWide (resolveValue b s) (resolveValue c s)) s)
  | .not a b => Storable a ∧ t = advance 3 (putTarget a (aluNot (resolveValue b s)) s)
  | .rmem a b => Storable a ∧ (resolveValue b s).toNat < 32768 ∧
      t = advance 3 (putTarget a (s.mem.read (resolveValue b s).toNat) s)
  | .wmem a b => (resolveValue a s).toNat < 32768 ∧
      t = advance 3 (s.setMem (s.mem.write (resolveValue a s).toNat (resolveValue b s)))
  | .call a => s.params.stackCapacity ≠ some s.stack.length ∧
      t = (s.setStack ((s.pc + 2#16) :: s.stack)).setPc (resolveValue a s)
  | .ret => (s.stack = [] ∧ t = enterHalted s) ∨ ∃ v st, s.stack = v :: st ∧ t = (s.setStack st).setPc v
  | .out a => t = advance 2 (emit ((resolveValue a s).setWidth 8) s)
  | .inp a => (s.inq = [] ∧ t = enterSuspended s) ∨
      Storable a ∧ ∃ v q, s.inq = v :: q ∧ t = advance 2 (putTarget a v (s.setInq q))
  | .noop => t = advance 1 s

/-- An assignment's step takes ADDRESS_RANGE on a destination outside the memory, which no encoding has, or writes it. -/
theorem commit_assign_cases (s0 : State) (d : Dst) (v : Word) (n : Nat) (s : State) :
    (Storable d ∧ commit s0 (assign d v n s) = .next (advance n (putTarget d v s))) ∨
    commit s0 (assign d v n s) = .next (raiseFault .addressRange s0) := by
  rcases assign_cases d v n s with ⟨h, e⟩ | ⟨_, e⟩
  · exact .inl ⟨h, by rw [e]; rfl⟩
  · exact .inr (by rw [e]; rfl)

/-- Everything exec can answer: a next state always, in which a fault was taken or the effect happened. -/
theorem exec_cases (i : Instr) (s : State) :
    (∃ c, c ≠ .none ∧ exec i s = .next (raiseFault c s)) ∨ ∃ t, exec i s = .next t ∧ Effect i s t := by
  have assigned : ∀ (j : Instr) (d : Dst) (v : Word) (n : Nat), exec j s = commit s (assign d v n s) →
      (Storable d → Effect j s (advance n (putTarget d v s))) →
      (∃ c, c ≠ .none ∧ exec j s = .next (raiseFault c s)) ∨ ∃ t, exec j s = .next t ∧ Effect j s t := by
    intro j d v n hj heff
    rcases commit_assign_cases s d v n s with ⟨h, e⟩ | e
    · exact .inr ⟨_, hj.trans e, heff h⟩
    · exact .inl ⟨.addressRange, by simp, hj.trans e⟩
  cases i with
  | halt => exact .inr ⟨_, rfl, rfl⟩
  | noop => exact .inr ⟨_, rfl, rfl⟩
  | set a b => exact assigned _ _ _ _ rfl fun h => ⟨h, rfl⟩
  | eq a b c => exact assigned _ _ _ _ rfl fun h => ⟨h, rfl⟩
  | gt a b c => exact assigned _ _ _ _ rfl fun h => ⟨h, rfl⟩
  | add a b c => exact assigned _ _ _ _ rfl fun h => ⟨h, rfl⟩
  | mult a b c => exact assigned _ _ _ _ rfl fun h => ⟨h, rfl⟩
  | and a b c => exact assigned _ _ _ _ rfl fun h => ⟨h, rfl⟩
  | or a b c => exact assigned _ _ _ _ rfl fun h => ⟨h, rfl⟩
  | not a b => exact assigned _ _ _ _ rfl fun h => ⟨h, rfl⟩
  | jmp a => exact .inr ⟨_, rfl, rfl⟩
  | jt a b => exact .inr ⟨_, rfl, rfl⟩
  | jf a b => exact .inr ⟨_, rfl, rfl⟩
  | out a => exact .inr ⟨_, rfl, rfl⟩
  | push a =>
    rcases push_cases (resolveValue a s) s with ⟨h, e⟩ | ⟨_, e⟩
    · exact .inr ⟨_, by simp only [exec, execPush, e]; rfl, h, rfl⟩
    · exact .inl ⟨.stackOverflow, by simp, by simp only [exec, execPush, e]; rfl⟩
  | call a =>
    rcases push_cases (s.pc + 2#16) s with ⟨h, e⟩ | ⟨_, e⟩
    · exact .inr ⟨_, by simp only [exec, execCall, e]; rfl, h, rfl⟩
    · exact .inl ⟨.stackOverflow, by simp, by simp only [exec, execCall, e]; rfl⟩
  | pop a =>
    rcases pop?_cases s with ⟨_, e⟩ | ⟨v, st, h, e⟩
    · exact .inl ⟨.stackUnderflow, by simp, by simp only [exec, execPop, e]; rfl⟩
    · rcases commit_assign_cases s a v 2 (s.setStack st) with ⟨hd, e'⟩ | e'
      · exact .inr ⟨_, by simp only [exec, execPop, e]; exact e', hd, v, st, h, rfl⟩
      · exact .inl ⟨.addressRange, by simp, by simp only [exec, execPop, e]; exact e'⟩
  | inp a =>
    rcases dequeue?_cases s with ⟨h, e⟩ | ⟨v, q, h, e⟩
    · exact .inr ⟨_, by simp only [exec, execInp, e], .inl ⟨h, rfl⟩⟩
    · rcases commit_assign_cases s a v 2 (s.setInq q) with ⟨hd, e'⟩ | e'
      · exact .inr ⟨_, by simp only [exec, execInp, e]; exact e', .inr ⟨hd, v, q, h, rfl⟩⟩
      · exact .inl ⟨.addressRange, by simp, by simp only [exec, execInp, e]; exact e'⟩
  | ret =>
    rcases pop?_cases s with ⟨h, e⟩ | ⟨v, st, h, e⟩
    · exact .inr ⟨_, by simp only [exec, execRet, e], .inl ⟨h, rfl⟩⟩
    · exact .inr ⟨_, by simp only [exec, execRet, e], .inr ⟨v, st, h, rfl⟩⟩
  | mod a b c =>
    cases e : aluMod (resolveValue b s) (resolveValue c s) with
    | error x =>
      have hx : x = .divideByZero := by
        unfold aluMod at e
        split at e <;> cases e
        rfl
      exact .inl ⟨x, by simp [hx], by simp only [exec, execMod, e]; rfl⟩
    | ok v =>
      rcases commit_assign_cases s a v 4 s with ⟨hd, e'⟩ | e'
      · exact .inr ⟨_, by simp only [exec, execMod, e]; exact e', hd, v, e, rfl⟩
      · exact .inl ⟨.addressRange, by simp, by simp only [exec, execMod, e]; exact e'⟩
  | rmem a b =>
    rcases memRead_cases (resolveValue b s) s with ⟨h, e⟩ | ⟨_, e⟩
    · rcases commit_assign_cases s a (s.mem.read (resolveValue b s).toNat) 3 s with ⟨hd, e'⟩ | e'
      · exact .inr ⟨_, by simp only [exec, execRmem, e]; exact e', hd, h, rfl⟩
      · exact .inl ⟨.addressRange, by simp, by simp only [exec, execRmem, e]; exact e'⟩
    · exact .inl ⟨.addressRange, by simp, by simp only [exec, execRmem, e]; rfl⟩
  | wmem a b =>
    rcases memWrite_cases (resolveValue a s) (resolveValue b s) s with ⟨h, e⟩ | ⟨_, e⟩
    · exact .inr ⟨_, by simp only [exec, execWmem, e]; rfl, h, rfl⟩
    · exact .inl ⟨.addressRange, by simp, by simp only [exec, execWmem, e]; rfl⟩

/-- The form in which a given next state is used. -/
theorem exec_next_cases {i : Instr} {s t : State} (h : exec i s = .next t) :
    (∃ c, c ≠ .none ∧ t = raiseFault c s) ∨ Effect i s t := by
  rcases exec_cases i s with ⟨c, hc, e⟩ | ⟨u, e, he⟩
  · exact .inl ⟨c, hc, by rw [e] at h; exact (Host.Outcome.next.inj h).symm⟩
  · exact .inr (by rw [e] at h; exact Host.Outcome.next.inj h ▸ he)

/-- The next state of an assignment by an instruction whose meaning is one. -/
theorem assigns_of_exec {i : Instr} {d : Dst} {v : Word} {n : Nat} {s : State} (hd : d.wellFormed = true)
    (h : exec i s = commit s (assign d v n s)) : Assigns i d v n s := by
  rw [assign_wf hd] at h
  refine ⟨_, h, by simp [advance], ?_, by simp [advance], by simp [advance], by simp [KeepsStatusAndOutput, advance]⟩
  exact targetWritten_putTarget d v s

/-- The causes of the decode stage are faults. -/
theorem causeOf_ne_none (e : DecodeError) : causeOf e ≠ .none := by cases e <;> simp [causeOf]

theorem fetchDecode_error_ne_none {s : State} {c : Cause} (h : fetchDecode s = .error c) : c ≠ .none := by
  unfold fetchDecode at h
  split at h <;> cases h
  exact causeOf_ne_none _

/-- Everything an enabled step can do. -/
theorem step_enabled_cases {s : State} (he : enabled s = true) :
    (∃ c, c ≠ .none ∧ step s = .next (raiseFault c s)) ∨
    ∃ i t, fetchDecode s = .ok i ∧ exec i s = .next t ∧ step s = .next t ∧ Effect i s t := by
  cases hf : fetchDecode s with
  | error c => exact .inl ⟨c, fetchDecode_error_ne_none hf, by simp only [step, he, if_true, hf]⟩
  | ok i =>
    have hs : step s = exec i s := by simp only [step, he, if_true, hf]
    rcases exec_cases i s with ⟨c, hc, e⟩ | ⟨t, e, h⟩
    · exact .inl ⟨c, hc, hs.trans e⟩
    · exact .inr ⟨i, t, rfl, e, hs.trans e, h⟩

/-- Everything the host's turn can do, when no step is enabled. -/
theorem step_host_cases {s t : State} (he : enabled s = false) (h : step s = .next t) :
    (s.host = [] ∧ t = s) ∨ ∃ c cs, s.host = c :: cs ∧ s.status.active = false ∧ hostDo c (s.setHost cs) = .next t := by
  simp only [step, he, Bool.false_eq_true, if_false, hostTurn] at h
  cases hh : s.host with
  | nil => rw [hh] at h; exact .inl ⟨rfl, (Host.Outcome.next.inj h).symm⟩
  | cons c cs =>
    rw [hh] at h
    cases ha : s.status.active with
    | true => simp [hostDo, ha] at h
    | false => exact .inr ⟨c, cs, rfl, rfl, h⟩

/-- Everything a host command can do. -/
theorem hostDo_cases {c : HostCmd} {s t : State} (ha : s.status.active = false) (h : hostDo c s = .next t) :
    (∃ bytes u, c = .load bytes ∧ loadImage s.params bytes = .ok u ∧ t = u.setHost s.host) ∨
    (∃ w, c = .enq w ∧ s.params.inputQueueCapacity ≠ some s.inq.length ∧ t = enqueue w s) ∨
    (c = .run ∧ (s.status.state = .running ∨ s.status.state = .suspended) ∧ t = beginRun s) ∨
    (c = .run ∧ (s.status.state = .halted ∨ s.status.state = .faulted) ∧ t = s) := by
  simp only [hostDo, ha, Bool.false_eq_true, if_false] at h
  cases c with
  | load bytes =>
    simp only [hostLoad] at h
    split at h <;> cases h
    exact .inl ⟨bytes, _, rfl, ‹_›, rfl⟩
  | enq w =>
    simp only [hostEnq] at h
    split at h <;> cases h
    exact .inr (.inl ⟨w, rfl, by simpa [inputQueueFull] using ‹¬ inputQueueFull s = true›, rfl⟩)
  | run =>
    simp only [hostRun] at h
    split at h <;> cases h <;> simp_all

/-- What a LOAD that succeeds builds. -/
theorem loadImage_ok {p : Params} {bytes : List Byte} {u : State} (h : loadImage p bytes = .ok u) :
    bytes.length % 2 = 0 ∧ bytes.length / 2 ≤ 32768 ∧
    u = { State.reset with mem := imageFrom 0 (pairBytes bytes), params := p } := by
  unfold loadImage at h
  split at h
  · cases h
  · unfold construct at h
    rw [length_pairBytes] at h
    split at h <;> cases h
    exact ⟨by omega, ‹_›, rfl⟩

/-- What an effect does to STATUS: nothing, or one of the two normal stops (60_exceptions.md R121, R122). -/
theorem effect_status {i : Instr} {s t : State} (h : Effect i s t) :
    t.status = s.status ∨
    (t = enterHalted s ∧ (i = .halt ∨ i = .ret ∧ s.stack = [])) ∨
    (t = enterSuspended s ∧ s.inq = [] ∧ ∃ a, i = .inp a) := by
  cases i <;> simp only [Effect] at h
  case halt => exact .inr (.inl ⟨h, .inl rfl⟩)
  case ret =>
    rcases h with ⟨h, rfl⟩ | ⟨v, st, h, rfl⟩
    · exact .inr (.inl ⟨rfl, .inr ⟨rfl, h⟩⟩)
    · exact .inl rfl
  case inp a =>
    rcases h with ⟨h, rfl⟩ | ⟨_, v, q, h, rfl⟩
    · exact .inr (.inr ⟨rfl, h, _, rfl⟩)
    · exact .inl (by simp [advance])
  case pop => obtain ⟨_, v, st, _, rfl⟩ := h; exact .inl (by simp [advance])
  case mod => obtain ⟨_, v, _, rfl⟩ := h; exact .inl (by simp [advance])
  case rmem => obtain ⟨_, _, rfl⟩ := h; exact .inl (by simp [advance])
  case jt => subst h; split <;> exact .inl rfl
  case jf => subst h; split <;> exact .inl rfl
  case out => subst h; exact .inl rfl
  case jmp => subst h; exact .inl rfl
  case noop => subst h; exact .inl rfl
  all_goals (obtain ⟨_, rfl⟩ := h; exact .inl (by simp [advance]))

/-- No effect touches the two fields of the model's own. -/
theorem effect_params_host {i : Instr} {s t : State} (h : Effect i s t) : t.params = s.params ∧ t.host = s.host := by
  cases i <;> simp only [Effect] at h
  case halt => subst h; exact ⟨rfl, rfl⟩
  case ret => rcases h with ⟨_, rfl⟩ | ⟨v, st, _, rfl⟩ <;> exact ⟨rfl, rfl⟩
  case inp => rcases h with ⟨_, rfl⟩ | ⟨_, v, q, _, rfl⟩ <;> simp [advance, enterSuspended]
  case pop => obtain ⟨_, v, st, _, rfl⟩ := h; simp [advance]
  case mod => obtain ⟨_, v, _, rfl⟩ := h; simp [advance]
  case rmem => obtain ⟨_, _, rfl⟩ := h; simp [advance]
  case jt => subst h; split <;> exact ⟨rfl, rfl⟩
  case jf => subst h; split <;> exact ⟨rfl, rfl⟩
  case out => subst h; exact ⟨rfl, rfl⟩
  case jmp => subst h; exact ⟨rfl, rfl⟩
  case noop => subst h; exact ⟨rfl, rfl⟩
  all_goals (obtain ⟨_, rfl⟩ := h; simp [advance])

/-- A step with a host command pending and no run active is that command. -/
theorem step_host_command {s : State} {c : HostCmd} {cs : List HostCmd} (ha : s.status.active = false)
    (hh : s.host = c :: cs) : step s = hostDo c (s.setHost cs) := by
  simp [step, enabled, ha, hostTurn, hh]

/-! ### Runs -/

theorem runsTo_zero (s : State) : RunsTo 0 s s := rfl

theorem runsTo_succ {k : Nat} {s t u : State} (h : step s = .next t) (hr : RunsTo k t u) : RunsTo (k + 1) s u := by
  simp only [RunsTo, Host.Core.run, Sys2Proof.core] at hr ⊢
  rw [h]; exact hr

end Sys2Proof.Machine
end

