-- ==== Sys2Proof/Laws/PerInstr.lean ====
section
/-! SUPPORT. The family EncodedWidth: an instruction has as many words as the width column of spec/30_encoding.md rule R71 gives
its opcode word. -/

/-- The encoding of the instruction begins with a legal opcode word and has the width that word alone gives (R70, R81). -/
def Sys2Proof.Laws.EncodedWidth.Statement (i : Sys2Proof.Instr) : Prop :=
  ∃ op rest, Sys2Proof.encode i = op :: rest ∧ Sys2Proof.opcodeWidth op.toNat = some (Sys2Proof.encode i).length

theorem Sys2Proof.Laws.EncodedWidth.halt :
    Sys2Proof.Laws.EncodedWidth.Statement (.halt) := ⟨_, _, rfl, rfl⟩

theorem Sys2Proof.Laws.EncodedWidth.set (a : Sys2Proof.Dst) (b : Sys2Proof.Src) :
    Sys2Proof.Laws.EncodedWidth.Statement (.set a b) := ⟨_, _, rfl, rfl⟩

theorem Sys2Proof.Laws.EncodedWidth.push (a : Sys2Proof.Src) :
    Sys2Proof.Laws.EncodedWidth.Statement (.push a) := ⟨_, _, rfl, rfl⟩

theorem Sys2Proof.Laws.EncodedWidth.pop (a : Sys2Proof.Dst) :
    Sys2Proof.Laws.EncodedWidth.Statement (.pop a) := ⟨_, _, rfl, rfl⟩

theorem Sys2Proof.Laws.EncodedWidth.eq (a : Sys2Proof.Dst) (b : Sys2Proof.Src) (c : Sys2Proof.Src) :
    Sys2Proof.Laws.EncodedWidth.Statement (.eq a b c) := ⟨_, _, rfl, rfl⟩

theorem Sys2Proof.Laws.EncodedWidth.gt (a : Sys2Proof.Dst) (b : Sys2Proof.Src) (c : Sys2Proof.Src) :
    Sys2Proof.Laws.EncodedWidth.Statement (.gt a b c) := ⟨_, _, rfl, rfl⟩

theorem Sys2Proof.Laws.EncodedWidth.jmp (a : Sys2Proof.Src) :
    Sys2Proof.Laws.EncodedWidth.Statement (.jmp a) := ⟨_, _, rfl, rfl⟩

theorem Sys2Proof.Laws.EncodedWidth.jt (a : Sys2Proof.Src) (b : Sys2Proof.Src) :
    Sys2Proof.Laws.EncodedWidth.Statement (.jt a b) := ⟨_, _, rfl, rfl⟩

theorem Sys2Proof.Laws.EncodedWidth.jf (a : Sys2Proof.Src) (b : Sys2Proof.Src) :
    Sys2Proof.Laws.EncodedWidth.Statement (.jf a b) := ⟨_, _, rfl, rfl⟩

theorem Sys2Proof.Laws.EncodedWidth.add (a : Sys2Proof.Dst) (b : Sys2Proof.Src) (c : Sys2Proof.Src) :
    Sys2Proof.Laws.EncodedWidth.Statement (.add a b c) := ⟨_, _, rfl, rfl⟩

theorem Sys2Proof.Laws.EncodedWidth.mult (a : Sys2Proof.Dst) (b : Sys2Proof.Src) (c : Sys2Proof.Src) :
    Sys2Proof.Laws.EncodedWidth.Statement (.mult a b c) := ⟨_, _, rfl, rfl⟩

theorem Sys2Proof.Laws.EncodedWidth.mod (a : Sys2Proof.Dst) (b : Sys2Proof.Src) (c : Sys2Proof.Src) :
    Sys2Proof.Laws.EncodedWidth.Statement (.mod a b c) := ⟨_, _, rfl, rfl⟩

theorem Sys2Proof.Laws.EncodedWidth.and (a : Sys2Proof.Dst) (b : Sys2Proof.Src) (c : Sys2Proof.Src) :
    Sys2Proof.Laws.EncodedWidth.Statement (.and a b c) := ⟨_, _, rfl, rfl⟩

theorem Sys2Proof.Laws.EncodedWidth.or (a : Sys2Proof.Dst) (b : Sys2Proof.Src) (c : Sys2Proof.Src) :
    Sys2Proof.Laws.EncodedWidth.Statement (.or a b c) := ⟨_, _, rfl, rfl⟩

theorem Sys2Proof.Laws.EncodedWidth.not (a : Sys2Proof.Dst) (b : Sys2Proof.Src) :
    Sys2Proof.Laws.EncodedWidth.Statement (.not a b) := ⟨_, _, rfl, rfl⟩

theorem Sys2Proof.Laws.EncodedWidth.rmem (a : Sys2Proof.Dst) (b : Sys2Proof.Src) :
    Sys2Proof.Laws.EncodedWidth.Statement (.rmem a b) := ⟨_, _, rfl, rfl⟩

theorem Sys2Proof.Laws.EncodedWidth.wmem (a : Sys2Proof.Src) (b : Sys2Proof.Src) :
    Sys2Proof.Laws.EncodedWidth.Statement (.wmem a b) := ⟨_, _, rfl, rfl⟩

theorem Sys2Proof.Laws.EncodedWidth.call (a : Sys2Proof.Src) :
    Sys2Proof.Laws.EncodedWidth.Statement (.call a) := ⟨_, _, rfl, rfl⟩

theorem Sys2Proof.Laws.EncodedWidth.ret :
    Sys2Proof.Laws.EncodedWidth.Statement (.ret) := ⟨_, _, rfl, rfl⟩

theorem Sys2Proof.Laws.EncodedWidth.out (a : Sys2Proof.Src) :
    Sys2Proof.Laws.EncodedWidth.Statement (.out a) := ⟨_, _, rfl, rfl⟩

theorem Sys2Proof.Laws.EncodedWidth.inp (a : Sys2Proof.Dst) :
    Sys2Proof.Laws.EncodedWidth.Statement (.inp a) := ⟨_, _, rfl, rfl⟩

theorem Sys2Proof.Laws.EncodedWidth.noop :
    Sys2Proof.Laws.EncodedWidth.Statement (.noop) := ⟨_, _, rfl, rfl⟩
end

