-- ==== Sys2Proof/Tests/Slice0.lean ====
section
/-! SUPPORT. The model's own tests: ill-formed terms that WellFormed refuses, words written out from the spec's encodings, one step
of each instruction on the vectors of spec/95_test_vectors.md, and a witness for the hypotheses of each statement. Every expected
value is the spec's. -/

namespace Sys2Proof.Tests

open Sys2Proof Sys2Proof.Machine

/-! ### Small states -/

/-- The engine after LOAD of these words and RUN (spec/95_test_vectors.md, the set-up of parts 2 and 3). -/
def machine (ws : List Word) : State := beginRun { State.reset with mem := imageFrom 0 ws }

/-- Registers 0, 1, 2 set before the run. -/
def withRegs (a b c : Word) (s : State) : State := writeReg 0 a (writeReg 1 b (writeReg 2 c s))

def withParams (p : Params) (s : State) : State := { s with params := p }

def mask15 : Params := { Params.reference with andOrWide := .mask15 }

def capacities (n : Nat) : Params := { Params.reference with stackCapacity := some n, inputQueueCapacity := some n }

/-- One reading of the state after one step, if the step answers one. -/
def after {A : Type} (s : State) (f : State → A) : Option A :=
  match step s with
  | .next t => some (f t)
  | .fault _ => none
  | .refused _ => none

def faulted (c : Cause) : Status := { state := .faulted, active := false, cause := c }

/-! ### WellFormed refuses what no encoding has: a literal or an address above 32767, in every slot (30_encoding.md R66) -/

theorem test_literal_above_range_is_ill_formed :
    (Instr.push (.lit 32768)).wellFormed = false ∧ (Instr.jmp (.lit 65535)).wellFormed = false ∧
    (Instr.call (.lit 32768)).wellFormed = false ∧ (Instr.out (.lit 32776)).wellFormed = false ∧
    (Instr.push (.lit 32767)).wellFormed = true := by decide

theorem test_address_above_range_is_ill_formed :
    (Instr.pop (.mem 32768)).wellFormed = false ∧ (Instr.inp (.mem 40000)).wellFormed = false ∧
    (Instr.pop (.mem 32767)).wellFormed = true := by decide

theorem test_two_slots_are_checked :
    (Instr.set (.mem 32768) (.lit 0)).wellFormed = false ∧ (Instr.set (.mem 0) (.lit 32768)).wellFormed = false ∧
    (Instr.not (.mem 32768) (.lit 0)).wellFormed = false ∧ (Instr.not (.mem 0) (.lit 32768)).wellFormed = false ∧
    (Instr.rmem (.mem 32768) (.lit 0)).wellFormed = false ∧ (Instr.rmem (.mem 0) (.lit 32768)).wellFormed = false ∧
    (Instr.wmem (.lit 32768) (.lit 0)).wellFormed = false ∧ (Instr.wmem (.lit 0) (.lit 32768)).wellFormed = false ∧
    (Instr.jt (.lit 32768) (.lit 0)).wellFormed = false ∧ (Instr.jt (.lit 0) (.lit 32768)).wellFormed = false ∧
    (Instr.jf (.lit 32768) (.lit 0)).wellFormed = false ∧ (Instr.jf (.lit 0) (.lit 32768)).wellFormed = false := by decide

/-- The three slots of a format TVV instruction. -/
def refusesEachSlot (mk : Dst → Src → Src → Instr) : Bool :=
  !(mk (.mem 32768) (.lit 0) (.lit 0)).wellFormed && !(mk (.mem 0) (.lit 32768) (.lit 0)).wellFormed &&
    !(mk (.mem 0) (.lit 0) (.lit 32768)).wellFormed && (mk (.mem 0) (.lit 0) (.lit 0)).wellFormed

theorem test_three_slots_are_checked :
    refusesEachSlot .eq = true ∧ refusesEachSlot .gt = true ∧ refusesEachSlot .add = true ∧ refusesEachSlot .mult = true ∧
    refusesEachSlot .mod = true ∧ refusesEachSlot .and = true ∧ refusesEachSlot .or = true := by decide

/-! ### Decoding: every constructor by a word sequence written out from 30_encoding.md R66, R67, R71 -/

theorem test_decode_halt : decode [0] = .ok (.halt, []) := by decide
theorem test_decode_set : decode [1, 32769, 7] = .ok (.set (.reg 1) (.lit 7), []) := by decide
theorem test_decode_push : decode [2, 32768] = .ok (.push (.reg 0), []) := by decide
theorem test_decode_pop : decode [3, 0] = .ok (.pop (.mem 0), []) := by decide
theorem test_decode_eq : decode [4, 32768, 5, 32775] = .ok (.eq (.reg 0) (.lit 5) (.reg 7), []) := by decide
theorem test_decode_gt : decode [5, 32767, 32770, 3] = .ok (.gt (.mem 32767) (.reg 2) (.lit 3), []) := by decide
theorem test_decode_jmp : decode [6, 3] = .ok (.jmp (.lit 3), []) := by decide
theorem test_decode_jt : decode [7, 32768, 10] = .ok (.jt (.reg 0) (.lit 10), []) := by decide
theorem test_decode_jf : decode [8, 1, 32771] = .ok (.jf (.lit 1) (.reg 3), []) := by decide
theorem test_decode_add : decode [9, 32768, 4, 6] = .ok (.add (.reg 0) (.lit 4) (.lit 6), []) := by decide
theorem test_decode_mult : decode [10, 32769, 32768, 32768] = .ok (.mult (.reg 1) (.reg 0) (.reg 0), []) := by decide
theorem test_decode_mod : decode [11, 32768, 17, 5] = .ok (.mod (.reg 0) (.lit 17) (.lit 5), []) := by decide
theorem test_decode_and : decode [12, 32770, 32769, 12345] = .ok (.and (.reg 2) (.reg 1) (.lit 12345), []) := by decide
theorem test_decode_or : decode [13, 32771, 32768, 8] = .ok (.or (.reg 3) (.reg 0) (.lit 8), []) := by decide
theorem test_decode_not : decode [14, 32769, 0] = .ok (.not (.reg 1) (.lit 0), []) := by decide
theorem test_decode_rmem : decode [15, 32770, 100] = .ok (.rmem (.reg 2) (.lit 100), []) := by decide
theorem test_decode_wmem : decode [16, 32768, 5] = .ok (.wmem (.reg 0) (.lit 5), []) := by decide
theorem test_decode_call : decode [17, 12] = .ok (.call (.lit 12), []) := by decide
theorem test_decode_ret : decode [18] = .ok (.ret, []) := by decide
theorem test_decode_out : decode [19, 65] = .ok (.out (.lit 65), []) := by decide
theorem test_decode_in : decode [20, 32768] = .ok (.inp (.reg 0), []) := by decide
theorem test_decode_noop : decode [21] = .ok (.noop, []) := by decide

theorem test_illegal_words_are_refused_by_name :
    decode [22] = .error .invalidOpcode ∧ decode [32768] = .error .invalidOpcode ∧ decode [65535] = .error .invalidOpcode ∧
    decode [9, 32768, 32776, 40000] = .error .invalidOperand ∧ decode [19] = .error .truncated ∧
    decode [] = .error .truncated := by decide

/-- The image bytes of scenario S2, little-endian (20_memory.md R59). -/
theorem test_decode_bytes_of_scenario_2 :
    decodeBytes [0x09, 0x00, 0x00, 0x80, 0x04, 0x00, 0x06, 0x00, 0x00, 0x00] =
      .ok (.add (.reg 0) (.lit 4) (.lit 6), [0]) := by decide

/-- A row of the opcode table without operand bits: its operand words are 0. -/
theorem test_table_word_add : decodeTableWord 16 9 = some (.add (.mem 0) (.lit 0) (.lit 0)) := by decide

theorem test_table_word_set_with_operands :
    decodeTableWord 48 (1 + 32769 * 65536 + 7 * 4294967296) = some (.set (.reg 1) (.lit 7)) := by decide

theorem test_first_step_after_reset_runs_the_word :
    after (State.reset.withFetchWord 48 (1 + 32769 * 65536 + 7 * 4294967296)) (fun t => (readReg 1 t, t.pc)) =
      some (7, 3) := by decide

theorem test_fetch_word_at_the_top_moves_to_0 :
    after ((State.reset.setPc 32766).withFetchWord 16 21) (fun t => t.pc) = some 1 := by decide

/-! ### One step of each instruction -/

theorem test_HN1_halt :
    after (machine [0]) (fun t => (t.pc, statusWord t.status)) = some (0, 2) := by decide

theorem test_HN2_noop :
    after (machine [21, 0]) (fun t => (t.pc, statusWord t.status)) = some (1, 4) := by decide

theorem test_MS1_set_register :
    after (machine [1, 32769, 7, 0]) (fun t => (readReg 1 t, t.pc)) = some (7, 3) := by decide

theorem test_MS4_set_own_operand_slot :
    after (machine [1, 2, 9, 0]) (fun t => (t.mem.read 2, t.pc)) = some (9, 3) := by decide

theorem test_MS7_push_wide :
    after (withRegs 65535 0 0 (machine [2, 32768])) (fun t => (t.stack, t.pc)) = some ([65535], 2) := by decide

theorem test_CR6_call_overflow_at_capacity_0 :
    after (withParams (capacities 0) (machine [17, 2, 0])) (fun t => (t.status, t.pc)) =
      some (faulted .stackOverflow, 0) := by decide

theorem test_MS10_push_overflow :
    after (withParams (capacities 1) ((machine [2, 1, 2, 2, 0]).setStack [1])) (fun t => t.status) = some (faulted .stackOverflow) := by decide

theorem test_MS8_pop_takes_the_top :
    after ((machine [3, 32768]).setStack [2, 1]) (fun t => (readReg 0 t, t.stack, t.pc)) = some (2, [1], 2) := by decide

theorem test_MS9_pop_underflow :
    after (machine [3, 0]) (fun t => (statusWord t.status, t.pc)) = some (27, 0) := by decide

theorem test_CP6_eq_compares_16_bits :
    after (withRegs 40000 1 0 (machine [4, 32769, 32768, 7232, 0])) (fun t => (readReg 1 t, t.pc)) = some (0, 4) := by decide

theorem test_CP8_eq_reads_before_writing :
    after (withRegs 3 0 0 (machine [4, 32768, 32768, 3, 0])) (fun t => readReg 0 t) = some 1 := by decide

theorem test_CP7_gt_wide_is_unsigned :
    after (withRegs 40000 0 0 (machine [5, 32769, 32768, 32767, 0])) (fun t => (readReg 1 t, t.pc)) = some (1, 4) := by decide

theorem test_CP4_gt_of_equals :
    after (withRegs 9 0 0 (machine [5, 32768, 5, 5, 0])) (fun t => readReg 0 t) = some 0 := by decide

theorem test_BR1_jmp :
    after (machine [6, 3, 21, 0]) (fun t => t.pc) = some 3 := by decide

theorem test_BR7_jmp_to_wide_target :
    after (withRegs 40000 0 0 (machine [6, 32768])) (fun t => (t.pc, t.status.state)) = some (40000, .running) := by decide

theorem test_BR3_jt_not_taken :
    after (machine [7, 0, 4, 0]) (fun t => t.pc) = some 3 := by decide

theorem test_BR2_jt_taken :
    after (machine [7, 1, 4, 0, 0]) (fun t => t.pc) = some 4 := by decide

theorem test_BR4_jf_taken :
    after (machine [8, 0, 4, 0, 0]) (fun t => t.pc) = some 4 := by decide

theorem test_BR5_jf_wide_is_true :
    after (withRegs 32768 0 0 (machine [8, 32768, 4, 0, 0])) (fun t => t.pc) = some 3 := by decide

theorem test_AR3_add_wraps :
    after (machine [9, 32768, 32767, 32767, 0]) (fun t => (readReg 0 t, t.pc)) = some (32766, 4) := by decide

theorem test_AR5_add_wide :
    after (withRegs 65535 9 0 (machine [9, 32769, 32768, 1, 0])) (fun t => readReg 1 t) = some 0 := by decide

theorem test_AR8_mult_wraps :
    after (machine [10, 32768, 32767, 32767, 0]) (fun t => (readReg 0 t, t.pc)) = some (1, 4) := by decide

theorem test_AR9_mult_wide :
    after (withRegs 65535 0 0 (machine [10, 32769, 32768, 32768, 0])) (fun t => readReg 1 t) = some 1 := by decide

theorem test_AR14_mod_wide :
    after (withRegs 0 39999 40000 (machine [11, 32768, 32769, 32770, 0])) (fun t => (readReg 0 t, t.pc)) = some (39999, 4) := by decide

theorem test_AR15_mod_by_zero :
    after (machine [11, 32768, 17, 0]) (fun t => (t.status, t.pc)) = some (faulted .divideByZero, 0) := by decide

theorem test_LG1_and :
    after (machine [12, 32768, 12, 10, 0]) (fun t => (readReg 0 t, t.pc)) = some (8, 4) := by decide

theorem test_LG5_and_wide_by_parameter :
    after (withRegs 65535 0 0 (machine [12, 32769, 32768, 32768, 0])) (fun t => readReg 1 t) = some 65535 ∧
    after (withParams mask15 (withRegs 65535 0 0 (machine [12, 32769, 32768, 32768, 0]))) (fun t => readReg 1 t) = some 32767 := by decide

theorem test_LG3_or :
    after (machine [13, 32768, 12, 10, 0]) (fun t => (readReg 0 t, t.pc)) = some (14, 4) := by decide

theorem test_LG6_or_wide_by_parameter :
    after (withRegs 32768 0 0 (machine [13, 32769, 32768, 1, 0])) (fun t => readReg 1 t) = some 32769 ∧
    after (withParams mask15 (withRegs 32768 0 0 (machine [13, 32769, 32768, 1, 0]))) (fun t => readReg 1 t) = some 1 := by decide

theorem test_LG9_not :
    after (machine [14, 32768, 21845, 0]) (fun t => (readReg 0 t, t.pc)) = some (10922, 3) := by decide

theorem test_LG11_not_wide :
    after (withRegs 32768 0 0 (machine [14, 32769, 32768, 0])) (fun t => readReg 1 t) = some 32767 := by decide

theorem test_MA7_rmem_memory_to_memory :
    after { machine [15, 10, 20, 0] with mem := (imageFrom 0 [15, 10, 20, 0]).write 20 7 } (fun t => (t.mem.read 10, t.pc)) =
      some (7, 3) := by decide

theorem test_MA5_rmem_out_of_range :
    after (withRegs 32768 0 0 (machine [15, 32769, 32768, 0])) (fun t => (t.status, t.pc)) = some (faulted .addressRange, 0) := by decide

theorem test_MA4_wmem_top_of_memory :
    after (machine [16, 32767, 1, 0]) (fun t => (t.mem.read 32767, t.pc)) = some (1, 3) := by decide

theorem test_wmem_uses_register_as_address :
    after (withRegs 50 0 0 (machine [16, 32768, 5, 0])) (fun t => (t.mem.read 50, readReg 0 t)) = some (5, 50) := by decide

theorem test_CR2_call :
    after { machine [] with mem := imageFrom 100 [17, 200], pc := 100 } (fun t => (t.stack, t.pc)) = some ([102], 200) := by decide

theorem test_CR5_call_at_the_top :
    after { machine [] with mem := imageFrom 32766 [17, 0], pc := 32766 } (fun t => (t.stack, t.pc)) = some ([32768], 0) := by decide

theorem test_CR4_ret_pops :
    after ((machine [18]).setStack [9, 5]) (fun t => (t.stack, t.pc)) = some ([5], 9) := by decide

theorem test_CR3_ret_on_empty_stack_halts :
    after (machine [18]) (fun t => (statusWord t.status, t.pc)) = some (2, 0) := by decide

theorem test_IO3_out_low_byte :
    after (machine [19, 321, 0]) (fun t => (t.outs, t.pc)) = some ([65], 2) := by decide

theorem test_IO4_out_wide :
    after (withRegs 65535 0 0 ((machine [19, 32768, 0]).setOuts [1])) (fun t => t.outs) = some [1, 255] := by decide

theorem test_IO7_in_takes_the_oldest :
    after ((machine [20, 32768, 0]).setInq [65, 66]) (fun t => (readReg 0 t, t.inq, t.pc)) = some (65, [66], 2) := by decide

theorem test_IO6_in_suspends :
    after (machine [20, 32768, 0]) (fun t => (statusWord t.status, t.pc)) = some (1, 0) := by decide

/-! ### Decode faults and the host's commands -/

theorem test_DC1_illegal_opcode :
    after (machine [22]) (fun t => (t.status, t.pc)) = some (faulted .invalidOpcode, 0) := by decide

theorem test_DC5_operand_beyond_memory :
    after { machine [] with mem := imageFrom 32767 [19], pc := 32767 } (fun t => (t.status, t.pc)) =
      some (faulted .addressRange, 32767) := by decide

theorem test_DC6_noop_at_the_top_then_fetch_fault :
    after { machine [] with mem := imageFrom 32767 [21], pc := 32767 } (fun t => (t.pc, t.status.state)) = some (32768, .running) ∧
    after ((machine []).setPc 32768) (fun t => (t.status, t.pc)) = some (faulted .addressRange, 32768) := by decide

theorem test_DC8_operand_before_underflow :
    after (machine [3, 40000]) (fun t => t.status) = some (faulted .invalidOperand) := by decide

theorem test_DC9_operand_before_suspension :
    after (machine [20, 40000]) (fun t => t.status) = some (faulted .invalidOperand) := by decide

theorem test_BR6_unused_target_is_resolved :
    after (machine [7, 0, 32776]) (fun t => t.status) = some (faulted .invalidOperand) := by decide

theorem test_LD1_load :
    after (State.reset.setHost [.load [0x09, 0x00, 0x00, 0x80], .run]) (fun t => (t.mem, t.status, t.host)) =
      some ([(0, 9), (1, 32768)], Status.reset, [.run]) := by decide

theorem test_LD2_load_of_one_byte_fails :
    after (State.reset.setHost [.load [0x01]]) (fun t => t.pc) = none := by decide

theorem test_HC4_status_before_any_run :
    statusWord State.reset.status = 0 ∧ after (State.reset.setHost [.run]) (fun t => statusWord t.status) = some 4 := by decide

theorem test_HC3_enq_while_suspended :
    after ({ machine [20, 32768, 0] with status := { state := .suspended, active := false, cause := .none }, host := [.enq 65] })
      (fun t => (t.inq, statusWord t.status)) = some ([65], 1) := by decide

/-- The first lines of program P1 with its label (R82, and its words in 95_test_vectors.md). -/
theorem test_assemble_P1_lines :
    assemble [.instr "set" [.reg 0, .lit 3], .label "loop", .instr "out" [.reg 1], .instr "jt" [.reg 0, .label "loop"], .word 21] =
      some [1, 32768, 3, 19, 32769, 7, 32768, 3, 21] := by decide

theorem test_disassemble :
    disassemble 3 [9, 32768, 4, 6, 0, 40000] = [.instr "add" [.reg 0, .lit 4, .lit 6], .instr "halt" [], .word 40000] := by decide

/-- An operand word that is invalid does not change the length of the instruction (R81). -/
theorem test_disassemble_goes_on_after_the_width :
    disassemble 2 [6, 40000, 21] = [.word 6, .word 40000, .instr "noop" []] := by decide

/-! ### A witness for the hypotheses of each statement: a state and operands that meet them all, one for each clause -/

theorem witness_SetCopiesValueToTarget :
    (Dst.mem 32767).wellFormed = true ∧ (Dst.reg 7).wellFormed = true := by decide

theorem witness_EqWritesEqualityOfWords :
    (Dst.mem 32767).wellFormed = true ∧ (Dst.reg 7).wellFormed = true := by decide

theorem witness_GtWritesUnsignedComparison :
    (Dst.mem 32767).wellFormed = true ∧ (Dst.reg 7).wellFormed = true := by decide

theorem witness_AddWritesSumModulo32768 :
    (Dst.mem 32767).wellFormed = true ∧ (Dst.reg 7).wellFormed = true := by decide

theorem witness_MultWritesProductModulo32768 :
    (Dst.mem 32767).wellFormed = true ∧ (Dst.reg 7).wellFormed = true := by decide

theorem witness_NotWritesFifteenBitComplement :
    (Dst.mem 32767).wellFormed = true ∧ (Dst.reg 7).wellFormed = true := by decide

theorem witness_PushPushesOrOverflows :
    State.reset.params.stackCapacity ≠ some State.reset.stack.length ∧
    (withParams (capacities 0) State.reset).params.stackCapacity = some (withParams (capacities 0) State.reset).stack.length := by decide

theorem witness_CallPushesReturnAddressOrOverflows :
    (withParams (capacities 2) (State.reset.setStack [7])).params.stackCapacity ≠ some (State.reset.setStack [7]).stack.length ∧
    (withParams (capacities 1) (State.reset.setStack [7])).params.stackCapacity = some (State.reset.setStack [7]).stack.length := by decide

theorem witness_PopWritesTopOrUnderflows :
    (Dst.mem 0).wellFormed = true ∧ (State.reset.setStack [40000]).stack = 40000 :: [] ∧ State.reset.stack = [] := by decide

theorem witness_ModWritesRemainderOrFaults :
    (Dst.reg 0).wellFormed = true ∧ resolveValue (.lit 1) State.reset ≠ 0#16 ∧ resolveValue (.reg 0) State.reset = 0#16 := by decide

theorem witness_AndWritesBitwiseAnd :
    (Dst.reg 0).wellFormed = true ∧ State.reset.params.andOrWide = .raw16 ∧
    (withParams mask15 State.reset).params.andOrWide = .mask15 := by decide

theorem witness_OrWritesBitwiseOr :
    (Dst.mem 32767).wellFormed = true ∧ State.reset.params.andOrWide = .raw16 ∧
    (withParams mask15 State.reset).params.andOrWide = .mask15 := by decide

theorem witness_AluResultsStayInFifteenBits :
    aluMod 17 5 = .ok 2 ∧ (32767 : Word).toNat < 32768 := by decide

theorem witness_RmemLoadsWordOrFaults :
    (Dst.reg 0).wellFormed = true ∧ (resolveValue (.lit 32767) State.reset).toNat < 32768 ∧
    32768 ≤ (resolveValue (.reg 0) (withRegs 32768 0 0 State.reset)).toNat := by decide

theorem witness_WmemStoresWordOrFaults :
    (resolveValue (.lit 32767) State.reset).toNat < 32768 ∧
    32768 ≤ (resolveValue (.reg 0) (withRegs 32768 0 0 State.reset)).toNat := by decide

theorem witness_MemoryAccessIsOneWordInRange :
    (32767 : Word).toNat < 32768 ∧ 32768 ≤ (32768 : Word).toNat := by decide

theorem witness_WrittenTargetReadsBack :
    (∃ t, writeTarget (.reg 7) 65535 State.reset = .ok t) ∧ ∃ t, writeTarget (.mem 32767) 65535 State.reset = .ok t := ⟨⟨_, rfl⟩, ⟨_, rfl⟩⟩

/-- A word stored by wmem and by a literal target at the last address, and the instructions that store nothing. -/
theorem witness_StoreIsSeenByEveryLaterFetch :
    storeAddress (.wmem (.lit 32767) (.lit 21)) State.reset = some 32767 ∧
    storedWord (.wmem (.lit 32767) (.lit 21)) State.reset = some 21 ∧
    storeAddress (.inp (.mem 32767)) (State.reset.setInq [65535]) = some 32767 ∧
    storedWord (.inp (.mem 32767)) (State.reset.setInq [65535]) = some 65535 ∧ 0 < 4 ∧ 32767 + 0 < 32768 ∧
    storeAddress (.pop (.mem 0)) State.reset = some 0 ∧ storedWord (.pop (.mem 0)) State.reset = none ∧
    storedWord (.inp (.mem 0)) State.reset = none ∧ storedWord (.mod (.mem 0) (.lit 1) (.lit 0)) State.reset = none ∧
    storedWord (.rmem (.mem 0) (.reg 0)) (withRegs 32768 0 0 State.reset) = none := by decide

theorem witness_RetPopsPcOrHalts :
    (State.reset.setStack [9]).stack = 9 :: [] ∧ State.reset.stack = [] := by decide

theorem witness_InDequeuesOrSuspends :
    (Dst.mem 32767).wellFormed = true ∧ (State.reset.setInq [65535]).inq = 65535 :: [] ∧ (machine [20, 0]).inq = [] ∧
    enabled (machine [20, 0]) = true := by decide

theorem witness_DecodeOfEncode :
    (Instr.add (.mem 32767) (.reg 7) (.lit 0)).wellFormed = true ∧ Instr.noop.wellFormed = true := by decide

theorem witness_DecodedWordsAreTheEncoding :
    decode [9, 32767, 32775, 0, 5] = .ok (.add (.mem 32767) (.reg 7) (.lit 0), [5]) := by decide

theorem witness_OperandWordMeansByItsClass :
    (32767 : Word).toNat ≤ 32767 ∧ (32775 : Word).toNat = 32768 + (7 : Fin 8).val ∧ 32776 ≤ (32776 : Word).toNat := by decide

theorem witness_AssemblyLineGivesEncoding :
    (Instr.inp (.mem 32767)).wellFormed = true := by decide

theorem witness_SequenceDecodingFollowsWidths :
    (21 : Word).toNat ≤ 21 ∧ (Instr.add (.mem 32767) (.reg 7) (.lit 0)).wellFormed = true ∧ ([6, 40000, 65535] : List Word).length ≤ 3 := by
  decide

theorem witness_StepRunsDecodedInstruction :
    enabled (machine [20, 0]) = true ∧ decode (fetchWindow (machine [20, 0])) = .ok (.inp (.mem 0), [0, 0]) := by decide

/-- The last address of memory holds a whole instruction. -/
theorem witness_WordsAtPcAreExecuted :
    ∃ s : State, enabled s = true ∧ Instr.noop.wellFormed = true ∧
      ∀ k w, (encode .noop)[k]? = some w → s.pc.toNat + k < 32768 ∧ s.mem.read (s.pc.toNat + k) = w := by
  refine ⟨{ machine [] with mem := [(32767, 21)], pc := 32767 }, by decide, rfl, fun k w h => ?_⟩
  match k with
  | 0 =>
    obtain rfl : w = 21 := by simpa [encode, eq_comm] using h
    exact ⟨by decide, rfl⟩
  | k + 1 => simp [encode] at h

theorem witness_DecodeFaultsInOrder_range :
    enabled ((machine []).setPc 32768) = true ∧ 32768 ≤ ((machine []).setPc 32768).pc.toNat := by decide

theorem witness_DecodeFaultsInOrder_opcode :
    enabled (machine [22]) = true ∧ (machine [22]).pc.toNat < 32768 ∧
    22 ≤ ((machine [22]).mem.read (machine [22]).pc.toNat).toNat := by decide

/-- Slot 1 of an `out` at the top of memory lies outside it; slot 2 of an `add` holds 32776, after a valid slot 1. -/
theorem witness_DecodeFaultsInOrder_slots :
    (opcodeWidth ((imageFrom 32767 [19]).read 32767).toNat = some 2 ∧ 32768 ≤ 32767 + 1) ∧
    (opcodeWidth ((machine [9, 32775, 32776]).mem.read 0).toNat = some 4 ∧
      ((machine [9, 32775, 32776]).mem.read (0 + 1)).toNat < 32776 ∧
      32776 ≤ ((machine [9, 32775, 32776]).mem.read (0 + 2)).toNat) := by decide

theorem witness_EnabledStepAnswersNextState :
    enabled (machine [0]) = true := by decide

theorem witness_FaultingStepCommitsNothing :
    ∃ t, enabled (machine [3, 0]) = true ∧ step (machine [3, 0]) = .next t ∧ t.status.state = .faulted := ⟨_, by decide, rfl, rfl⟩

theorem witness_HaltedAndFaultedAreNeverLeft :
    ∃ s t : State, s.status.state = .halted ∧ s.status.active = false ∧ (∀ bytes cs, s.host ≠ .load bytes :: cs) ∧ step s = .next t := ⟨(enterHalted (machine [0])).setHost [.run], _, rfl, rfl, by intro b c h; simp at h, rfl⟩

theorem witness_HaltedAndFaultedAreNeverLeft_faulted :
    ∃ s t : State, s.status.state = .faulted ∧ s.status.active = false ∧ (∀ bytes cs, s.host ≠ .load bytes :: cs) ∧ step s = .next t := ⟨(raiseFault .addressRange (machine [0])).setHost [.enq 1], _, rfl, rfl, by intro b c h; simp at h, rfl⟩

theorem witness_SuspendedOnlyByInOnEmptyQueue :
    ∃ t, enabled (machine [20, 0]) = true ∧ step (machine [20, 0]) = .next t ∧ t.status.state = .suspended := ⟨_, by decide, rfl, rfl⟩

theorem witness_HaltedOnlyByHaltOrEmptyRet :
    ∃ t u, enabled (machine [0]) = true ∧ step (machine [0]) = .next t ∧ t.status.state = .halted ∧
    enabled (machine [18]) = true ∧ step (machine [18]) = .next u ∧ u.status.state = .halted := ⟨_, _, by decide, rfl, rfl, by decide, rfl, rfl⟩

theorem witness_EveryStepKeepsTheInvariant :
    ∃ t, Inv (machine [16, 100, 65]) ∧ step (machine [16, 100, 65]) = .next t := by
  refine ⟨_, ⟨by decide, by decide, ?_, ?_⟩, rfl⟩ <;> intro c h <;> cases h

theorem witness_OnlyStackInstructionsTouchTheStack :
    ∃ t, exec (.push (.lit 7)) State.reset = .next t ∧ t.stack ≠ State.reset.stack := ⟨_, rfl, by decide⟩

theorem witness_RegistersChangeOnlyAsTargets :
    ∃ t, exec (.set (.reg 7) (.lit 7)) State.reset = .next t ∧ readReg 7 t ≠ readReg 7 State.reset := ⟨_, rfl, by decide⟩

theorem witness_MemoryChangesOnlyAtTheStoreAddress :
    ∃ t u, exec (.wmem (.lit 32767) (.lit 7)) State.reset = .next t ∧ t.mem.read 32767 ≠ State.reset.mem.read 32767 ∧
    exec (.set (.mem 0) (.lit 7)) State.reset = .next u ∧ u.mem.read 0 ≠ State.reset.mem.read 0 := ⟨_, _, rfl, by decide, rfl, by decide⟩

theorem witness_OutputGrowsOnlyByOut :
    ∃ t, exec (.out (.lit 65)) State.reset = .next t := ⟨_, rfl⟩

theorem witness_QueueIsDrainedOnlyByIn :
    ∃ t, exec (.inp (.reg 0)) (State.reset.setInq [5]) = .next t := ⟨_, rfl⟩

theorem witness_NoInstructionObservesStatusOrOutput :
    ∃ t, exec (.inp (.reg 0)) State.reset = .next t := ⟨_, rfl⟩

theorem witness_NoStepChangesTheParameters :
    ∃ t, step (machine [21]) = .next t := ⟨_, rfl⟩

theorem witness_SelfLoopsRunForEver :
    enabled (machine [6, 0]) = true ∧ (machine [6, 0]).pc.toNat + 1 < 32768 ∧ (machine [6, 0]).mem.read (0 + 1) = (machine [6, 0]).pc ∧
    (machine [6, 0]).mem.read 0 = 6#16 ∧ (machine [17, 0]).mem.read 0 = 17#16 ∧ (machine [17, 0]).mem.read (0 + 1) = 0 ∧
    (machine [17, 0]).params.stackCapacity = none := by decide

/-- An image of the greatest length. -/
theorem witness_LoadBuildsEngineFromImage :
    ∃ (s : State) (bytes : List Byte), s.status.active = false ∧ s.host = .load bytes :: [] ∧ bytes.length = 65536 ∧
      bytes.length % 2 = 0 ∧ bytes.length / 2 ≤ 32768 :=
  have h : (List.replicate 65536 (9 : Byte)).length = 65536 := List.length_replicate
  ⟨State.reset.setHost [.load (List.replicate 65536 9)], List.replicate 65536 9, rfl, rfl, h, by omega, by omega⟩

/-- The empty image. -/
theorem witness_LoadBuildsEngineFromImage_empty :
    (State.reset.setHost [.load []]).status.active = false ∧ (State.reset.setHost [.load []]).host = .load [] :: [] ∧
    ([] : List Byte).length % 2 = 0 ∧ ([] : List Byte).length / 2 ≤ 32768 := by decide

theorem witness_LoadFailsExactlyOnBadImages :
    construct Params.reference [] ≠ .error .formatError ∧
    (State.reset.setHost [.load [1]]).status.active = false ∧ (State.reset.setHost [.load [1]]).host = .load [1] :: [] := by decide

theorem witness_RunActsByEngineState :
    State.reset.status.active = false ∧ State.reset.status.state = .running ∧ (State.reset.setHost [.run]).host = .run :: [] ∧
    (enterSuspended (machine [])).status.state = .suspended ∧ (enterSuspended (machine [])).status.active = false ∧
    (enterHalted (machine [])).status.state = .halted ∧ (enterHalted (machine [])).status.active = false ∧
    (machine []).status.active = true ∧ (raiseFault .addressRange (machine [])).status.state = .faulted ∧ (raiseFault .addressRange (machine [])).status.active = false := by decide

theorem witness_EnqAppendsToInputQueue :
    (machine []).status.active = true ∧ State.reset.status.active = false ∧ (State.reset.setHost [.enq 65]).host = .enq 65 :: [] ∧
    State.reset.params.inputQueueCapacity ≠ some State.reset.inq.length ∧
    (withParams (capacities 0) State.reset).params.inputQueueCapacity = some State.reset.inq.length := by decide

theorem witness_IdleEngineStaysAsItIs :
    enabled State.reset = false ∧ State.reset.host = [] := by decide

def suspendedAtIn (h : List HostCmd) : State := (enterSuspended (machine [20, 32768, 0])).setHost h

theorem witness_RetryOnEmptyQueueSuspendsAgain :
    (suspendedAtIn [.run]).status.state = .suspended ∧ (suspendedAtIn [.run]).status.active = false ∧ (suspendedAtIn [.run]).inq = [] ∧
    fetchDecode (suspendedAtIn [.run]) = .ok (.inp (.reg 0)) ∧ (suspendedAtIn [.run]).host = .run :: [] := by decide

theorem witness_ResumeConsumesOneWord :
    (suspendedAtIn [.enq 65, .run]).status.state = .suspended ∧ (suspendedAtIn [.enq 65, .run]).status.active = false ∧
    (suspendedAtIn [.enq 65, .run]).inq = [] ∧ (suspendedAtIn [.enq 65, .run]).params.inputQueueCapacity ≠ some 0 ∧
    fetchDecode (suspendedAtIn [.enq 65, .run]) = .ok (.inp (.reg 0)) ∧
    (suspendedAtIn [.enq 65, .run]).host = .enq 65 :: .run :: [] := by decide

end Sys2Proof.Tests
end

section
/-! The state after reset (spec/10_state.md R39): what its accessors answer, and obligation O52. -/

namespace Sys2Proof.Machine

@[simp] theorem read_reset_mem (a : Nat) : State.reset.mem.read a = 0 := Memory.read_nil a

@[simp] theorem readReg_reset (r : Fin 8) : readReg r State.reset = 0 := by
  simp [readReg, State.reset, Vector.get_eq_getElem]

/-- R27: `Running`, ACTIVE 0 and CAUSE 0 are all coded 0, and so is the word of their layout. -/
@[simp] theorem statusWord_reset : statusWord Status.reset = 0 := by decide

/-- R87: an engine whose ACTIVE is 0 takes no step, whatever its STATE. -/
theorem enabled_eq_false_of_not_active {s : State} (h : s.status.active = false) : enabled s = false := by
  simp [Bool.eq_false_iff, enabled_iff, h]

/-- Settles O52: the empty memory and the replicated registers read 0, the stated fields hold by definition, and with ACTIVE 0 no
step is enabled. -/
theorem resetHoldsTheSpecValues : Obligations.ResetHoldsTheSpecValues :=
  ⟨read_reset_mem, readReg_reset, rfl, rfl, rfl, statusWord_reset, rfl, rfl, enabled_eq_false_of_not_active rfl⟩

end Sys2Proof.Machine
end

section
/-! One memory access (spec/20_memory.md R48, R49), and obligation O20. -/

namespace Sys2Proof.Machine

theorem memRead_of_lt {a : Word} (s : State) (h : a.toNat < 32768) : memRead a s = .ok (s.mem.read a.toNat) := if_pos h

theorem memRead_of_ge {a : Word} (s : State) (h : 32768 ≤ a.toNat) : memRead a s = .error .addressRange :=
  if_neg (Nat.not_lt.2 h)

theorem memWrite_of_lt {a : Word} (v : Word) (s : State) (h : a.toNat < 32768) :
    memWrite a v s = .ok (s.setMem (s.mem.write a.toNat v)) := if_pos h

theorem memWrite_of_ge {a : Word} (v : Word) (s : State) (h : 32768 ≤ a.toNat) :
    memWrite a v s = .error .addressRange := if_neg (Nat.not_lt.2 h)

/-- The address written reads the new word. -/
@[simp] theorem Memory.read_write_same (m : Memory) (a : Nat) (v : Word) : (m.write a v).read a = v := by
  rw [Memory.read_write, if_pos rfl]

/-- A write leaves every other address as it was. -/
theorem Memory.read_write_of_ne (m : Memory) {a b : Nat} (v : Word) (h : b ≠ a) : (m.write a v).read b = m.read b := by
  rw [Memory.read_write, if_neg h]

/-- R48 after R49: the address that a MemWrite accepted is read back. -/
theorem memRead_setMem_write {a : Word} (v : Word) (s : State) (h : a.toNat < 32768) :
    memRead a (s.setMem (s.mem.write a.toNat v)) = .ok v := by
  rw [memRead_of_lt _ h, State.setMem_mem, Memory.read_write_same]

/-- Settles O20: one range test decides both accesses, and in range the write changes the word at its own address only. -/
theorem memoryAccessIsOneWordInRange : Obligations.MemoryAccessIsOneWordInRange := by
  intro a v s
  constructor
  · intro h
    exact ⟨memRead_of_lt s h, _, memWrite_of_lt v s h, memRead_setMem_write v s h,
      fun x hx => Memory.read_write_of_ne s.mem v hx⟩
  · intro h
    exact ⟨memRead_of_ge s h, memWrite_of_ge v s h⟩

end Sys2Proof.Machine
end

section
/-! When an image is refused (spec/20_memory.md R60, R61, spec/60_exceptions.md R120), and obligation O54. -/

namespace Sys2Proof.Machine

/-- R61: only the number of words can make construction fail. -/
theorem construct_eq_formatError_iff (p : Params) (ws : List Word) :
    construct p ws = .error .formatError ↔ ws.length > 32768 := by
  unfold construct
  split
  case isTrue h => simp [h]
  case isFalse h => simp [Nat.lt_of_not_le h]

/-- R60, R61: the loader refuses an odd byte count, and otherwise the images that construction refuses. -/
theorem loadImage_eq_formatError_iff (p : Params) (bytes : List Byte) :
    loadImage p bytes = .error .formatError ↔ bytes.length % 2 = 1 ∨ bytes.length / 2 > 32768 := by
  unfold loadImage
  split
  case isTrue h => simp [h]
  case isFalse h => simp only [construct_eq_formatError_iff, length_pairBytes, h, false_or]

/-- R120: LOAD passes the loader's failure on, and has no other. -/
theorem hostLoad_eq_fault_iff (bytes : List Byte) (s : State) (f : Fault) :
    hostLoad bytes s = .fault f ↔ loadImage s.params bytes = .error f := by
  unfold hostLoad
  cases loadImage s.params bytes with
  | ok u => simp
  | error g => simp

/-- R132: a LOAD at the head of the host's commands is what the step of an inactive engine runs. -/
theorem step_load {s : State} {bytes : List Byte} {cs : List HostCmd} (ha : s.status.active = false)
    (hh : s.host = .load bytes :: cs) : step s = hostLoad bytes (s.setHost cs) := by
  rw [step_host_command ha hh, hostDo, State.setHost_status, ha]
  rfl

/-- Settles O54: the step is the LOAD, LOAD fails exactly when the loader does, and the loader when the count is odd or
construction fails. -/
theorem loadFailsExactlyOnBadImages : Obligations.LoadFailsExactlyOnBadImages := by
  refine ⟨fun s bytes cs ha hh => ?_, construct_eq_formatError_iff⟩
  rw [step_load ha hh, hostLoad_eq_fault_iff, loadImage_eq_formatError_iff]

end Sys2Proof.Machine
end

section
/-! Encoding and then decoding an instruction (spec/30_encoding.md R66, R67, R71): one rule per format, and the round trip built
from them. -/

namespace Sys2Proof

theorem decodeV_toWord (mk : Src → Instr) {a : Src} (ha : a.wellFormed = true) (rest : List Word) :
    decodeV mk (a.toWord :: rest) = .ok (mk a, rest) := by
  rw [decodeV, takeSrc_toWord ha]; rfl

theorem decodeT_toWord (mk : Dst → Instr) {a : Dst} (ha : a.wellFormed = true) (rest : List Word) :
    decodeT mk (a.toWord :: rest) = .ok (mk a, rest) := by
  rw [decodeT, takeDst_toWord ha]; rfl

theorem decodeTV_toWord (mk : Dst → Src → Instr) {a : Dst} {b : Src} (ha : a.wellFormed = true) (hb : b.wellFormed = true)
    (rest : List Word) : decodeTV mk (a.toWord :: b.toWord :: rest) = .ok (mk a b, rest) := by
  rw [decodeTV, takeDst_toWord ha]
  exact decodeV_toWord (mk a) hb rest

theorem decodeVV_toWord (mk : Src → Src → Instr) {a b : Src} (ha : a.wellFormed = true) (hb : b.wellFormed = true)
    (rest : List Word) : decodeVV mk (a.toWord :: b.toWord :: rest) = .ok (mk a b, rest) := by
  rw [decodeVV, takeSrc_toWord ha]
  exact decodeV_toWord (mk a) hb rest

theorem decodeTVV_toWord (mk : Dst → Src → Src → Instr) {a : Dst} {b c : Src} (ha : a.wellFormed = true)
    (hb : b.wellFormed = true) (hc : c.wellFormed = true) (rest : List Word) :
    decodeTVV mk (a.toWord :: b.toWord :: c.toWord :: rest) = .ok (mk a b c, rest) := by
  rw [decodeTVV, takeDst_toWord ha]
  exact decodeVV_toWord (mk a) hb hc rest

/-- The opcode word selects the format, and the format gives back its operands. -/
theorem decode_encode_append {i : Instr} (h : i.wellFormed = true) (rest : List Word) :
    decode (encode i ++ rest) = .ok (i, rest) := by
  cases i <;> simp only [Instr.wellFormed, Bool.and_eq_true] at h
  case halt | ret | noop => rfl
  case push a | jmp a | call a | out a => exact decodeV_toWord _ h rest
  case pop a | inp a => exact decodeT_toWord _ h rest
  case set a b | not a b | rmem a b => exact decodeTV_toWord _ h.1 h.2 rest
  case jt a b | jf a b | wmem a b => exact decodeVV_toWord _ h.1 h.2 rest
  case eq a b c | gt a b c | add a b c | mult a b c | mod a b c | and a b c | or a b c =>
    obtain ⟨⟨ha, hb⟩, hc⟩ := h
    exact decodeTVV_toWord _ ha hb hc rest

end Sys2Proof
end

section
/-! An enabled step by what the words at pc decode to (spec/30_encoding.md R63, R83, R88), and obligation O33. -/

namespace Sys2Proof.Machine

/-- No instruction is longer than the four words a fetch takes (R63). -/
theorem length_encode_le (i : Instr) : (encode i).length ≤ 4 := by
  cases i <;> simp [encode]

/-- At most four words that stand in memory from pc on are the first words of the fetch. -/
theorem prefix_fetchWindow {s : State} {ws : List Word} (hl : ws.length ≤ 4)
    (hw : ∀ k w, ws[k]? = some w → s.pc.toNat + k < 32768 ∧ s.mem.read (s.pc.toNat + k) = w) : ws <+: fetchWindow s := by
  rw [List.prefix_iff_getElem?]
  intro k hk
  obtain ⟨hin, hread⟩ := hw k ws[k] (List.getElem?_eq_getElem hk)
  rw [fetchWindow, getElem?_fetchFrom, if_pos ⟨by omega, hin⟩, hread]

theorem step_of_decode_ok {s : State} {i : Instr} {rest : List Word} (he : enabled s = true)
    (h : decode (fetchWindow s) = .ok (i, rest)) : step s = exec i s := by
  simp only [step, he, if_true, fetchDecode, h]

/-- R124: a step whose words decode to nothing ends in the fault of the decoder's reason. -/
theorem stepFaultsWith_of_decode_error {s : State} {e : DecodeError} (he : enabled s = true)
    (h : decode (fetchWindow s) = .error e) : StepFaultsWith (causeOf e) s :=
  ⟨raiseFault (causeOf e) s, by simp only [step, he, if_true, fetchDecode, h], rfl⟩

/-- Settles O33: the instruction's words are a prefix of the fetch, and decoding goes by that prefix alone. -/
theorem wordsAtPcAreExecuted : Obligations.WordsAtPcAreExecuted := by
  intro s i he hi hw
  obtain ⟨rest, hrest⟩ := prefix_fetchWindow (length_encode_le i) hw
  apply step_of_decode_ok he (rest := rest)
  rw [← hrest]
  exact decode_encode_append hi rest

end Sys2Proof.Machine
end

section
/-! The decode stage's first fault (spec/60_exceptions.md R124), and obligation O34. -/

namespace Sys2Proof.Machine

theorem opcodeWidth_le_four {op n : Nat} (h : opcodeWidth op = some n) : n ≤ 4 := by
  rcases Nat.lt_or_ge op 22 with hop | hop
  · obtain ⟨k, hk, -, hle⟩ := opcodeWidth_legal (Nat.le_of_lt_succ hop)
    cases hk.symm.trans h
    exact hle
  · cases (opcodeWidth_illegal hop).symm.trans h

theorem fetchWindow_of_ge {s : State} (h : 32768 ≤ s.pc.toNat) : fetchWindow s = [] := if_neg (Nat.not_lt.2 h)

/-- From inside the memory, a fetch is the opcode word and up to three operand words. -/
theorem fetchWindow_of_lt {s : State} (h : s.pc.toNat < 32768) :
    fetchWindow s = s.mem.read s.pc.toNat :: fetchFrom s.mem (s.pc.toNat + 1) 3 := if_pos h

/-- The words from `a` on, `k` of them, are inside the memory and can be operands (R73, R83). -/
def ValidSlots (m : Memory) (a k : Nat) : Prop := ∀ j, j < k → a + j < 32768 ∧ (m.read (a + j)).toNat < 32776

section
variable {m : Memory} {a k n : Nat} (hv : ValidSlots m a k) (hk : k < n)
include hv hk

theorem getElem?_fetchFrom_of_validSlots : ∀ j, j < k → ∃ w, (fetchFrom m a n)[j]? = some w ∧ w.toNat < 32776 := by
  intro j hj
  obtain ⟨hin, hw⟩ := hv j hj
  exact ⟨m.read (a + j), by rw [getElem?_fetchFrom, if_pos ⟨by omega, hin⟩], hw⟩

theorem slotError_truncated (h : 32768 ≤ a + k) : SlotError (fetchFrom m a n) k .truncated :=
  ⟨getElem?_fetchFrom_of_validSlots hv hk, .inl ⟨by rw [getElem?_fetchFrom, if_neg (by omega)], rfl⟩⟩

theorem slotError_invalidOperand (h : a + k < 32768) (hw : 32776 ≤ (m.read (a + k)).toNat) :
    SlotError (fetchFrom m a n) k .invalidOperand :=
  ⟨getElem?_fetchFrom_of_validSlots hv hk, .inr ⟨m.read (a + k), by rw [getElem?_fetchFrom, if_pos ⟨hk, h⟩], hw, rfl⟩⟩

end

/-- Behind a legal opcode word, the first operand slot that does not decode gives the step its fault. -/
theorem stepFaultsWith_of_slotError {s : State} {n k : Nat} {e : DecodeError} (he : enabled s = true)
    (hpc : s.pc.toNat < 32768) (hn : opcodeWidth (s.mem.read s.pc.toNat).toNat = some n) (hk : k + 1 < n)
    (h : SlotError (fetchFrom s.mem (s.pc.toNat + 1) 3) k e) : StepFaultsWith (causeOf e) s := by
  apply stepFaultsWith_of_decode_error he
  rw [fetchWindow_of_lt hpc]
  exact decodeOperands_of_slotError hn hk h

/-- Settles O34: no word can be fetched, or the opcode word is illegal, or the slot `k` is the first that does not decode. -/
theorem decodeFaultsInOrder : Obligations.DecodeFaultsInOrder := by
  intro s he
  refine ⟨fun hpc => ?range, fun hpc hop => ?opcode, fun n k hpc hn hk1 hkn hslots => ?slots⟩
  case range =>
    apply stepFaultsWith_of_decode_error he (e := .truncated)
    rw [fetchWindow_of_ge hpc]
    rfl
  case opcode =>
    apply stepFaultsWith_of_decode_error he (e := .invalidOpcode)
    rw [fetchWindow_of_lt hpc]
    exact decodeOperands_illegal hop
  case slots =>
    obtain ⟨k, rfl⟩ := Nat.exists_eq_add_of_le' hk1
    have hv : ValidSlots s.mem (s.pc.toNat + 1) k := fun j hj => by
      simpa only [Nat.add_assoc, Nat.add_comm 1] using hslots (j + 1) (by omega) (by omega)
    have hk3 : k < 3 := by have := opcodeWidth_le_four hn; omega
    rw [← Nat.add_assoc, Nat.add_right_comm]
    exact ⟨fun h => stepFaultsWith_of_slotError he hpc hn hkn (slotError_truncated hv hk3 h),
      fun h hw => stepFaultsWith_of_slotError he hpc hn hkn (slotError_invalidOperand hv hk3 h hw)⟩

end Sys2Proof.Machine
end

section
/-! Machine control (spec/40_halt_noop.md R91, R92): what an engine in Halted answers the host, and obligations O1 and O2. -/

namespace Sys2Proof.Machine

theorem exec_halt (s : State) : exec .halt s = .next (enterHalted s) := rfl

theorem exec_noop (s : State) : exec .noop s = .next (advance 1 s) := rfl

@[simp] theorem enterHalted_status (s : State) :
    (enterHalted s).status = { s.status with state := .halted, active := false } := rfl

/-- R137: no run is active and STATE is Halted. -/
theorem runResult_of_halted {x : Status} (hs : x.state = .halted) (ha : x.active = false) : runResult x = some .halted := by
  simp [runResult, hs, ha]

/-- R133, the row of Halted. -/
theorem hostRun_of_halted {s : State} (h : s.status.state = .halted) : hostRun s = .next s := by
  simp [hostRun, h]

/-- Settles O1: the step is `enterHalted`, and Halted alone decides both the run's result and what a later RUN does. -/
theorem haltEntersHaltedAndStays : Obligations.HaltEntersHaltedAndStays := by
  refine ⟨rfl, fun s => ⟨enterHalted s, exec_halt s, rfl, ?result, ?laterRun⟩⟩
  case result => exact runResult_of_halted (by simp) (by simp)
  case laterRun => exact hostRun_of_halted (by simp)

/-- Settles O2: the step is `advance 1`, which sets pc alone. -/
theorem noopAdvancesPcOnly : Obligations.NoopAdvancesPcOnly := ⟨rfl, exec_noop⟩

end Sys2Proof.Machine
end

section
/-! Moves and the data stack (spec/41_move_stack.md R93 to R95): each instruction's step by its cases, and obligations O3, O4 and
O5. -/

namespace Sys2Proof.Machine

theorem exec_set (a : Dst) (b : Src) (s : State) : exec (.set a b) s = commit s (assign a (resolveValue b s) 3 s) := rfl

theorem exec_push (a : Src) (s : State) : exec (.push a) s = commit s ((push (resolveValue a s) s).map (advance 2)) := rfl

/-- R30: below its capacity, or without one, the stack takes the word. -/
theorem push_of_room {s : State} (v : Word) (h : s.params.stackCapacity ≠ some s.stack.length) :
    push v s = .ok (s.setStack (v :: s.stack)) := if_neg (mt (stackFull_iff s).1 h)

theorem push_of_full {s : State} (v : Word) (h : s.params.stackCapacity = some s.stack.length) :
    push v s = .error .stackOverflow := if_pos ((stackFull_iff s).2 h)

theorem exec_push_of_room {s : State} (a : Src) (h : s.params.stackCapacity ≠ some s.stack.length) :
    exec (.push a) s = .next (advance 2 (s.setStack (resolveValue a s :: s.stack))) := by
  rw [exec_push, push_of_room _ h]; rfl

theorem exec_push_of_full {s : State} (a : Src) (h : s.params.stackCapacity = some s.stack.length) :
    exec (.push a) s = .next (raiseFault .stackOverflow s) := by
  rw [exec_push, push_of_full _ h]; rfl

theorem pop?_of_stack_nil {s : State} (h : s.stack = []) : pop? s = none := by simp only [pop?, h]

theorem pop?_of_stack_cons {s : State} {v : Word} {st : List Word} (h : s.stack = v :: st) :
    pop? s = some (v, s.setStack st) := by simp only [pop?, h]

theorem exec_pop_of_stack_nil {s : State} (a : Dst) (h : s.stack = []) :
    exec (.pop a) s = .next (raiseFault .stackUnderflow s) := by
  simp only [exec, execPop, pop?_of_stack_nil h, commit_error]

theorem exec_pop_of_stack_cons {s : State} {a : Dst} {v : Word} {st : List Word} (ha : a.wellFormed = true)
    (h : s.stack = v :: st) : exec (.pop a) s = .next (advance 2 (putTarget a v (s.setStack st))) := by
  simp only [exec, execPop, pop?_of_stack_cons h, assign_wf ha, commit_ok]

/-- R117: a step that answers `raiseFault` ends in Faulted with that cause. -/
theorem faultsWith_of_exec {i : Instr} {c : Cause} {s : State} (h : exec i s = .next (raiseFault c s)) : FaultsWith i c s :=
  ⟨_, h, rfl⟩

/-- Settles O3: the step is one assignment of the value read in the old state. -/
theorem setCopiesValueToTarget : Obligations.SetCopiesValueToTarget :=
  fun a b s ha => ⟨rfl, assigns_of_exec ha (exec_set a b s)⟩

/-- Settles O4: whether the depth equals the capacity decides between the pushed word and the fault. -/
theorem pushPushesOrOverflows : Obligations.PushPushesOrOverflows :=
  fun a _ => ⟨rfl, exec_push_of_room a, fun h => faultsWith_of_exec (exec_push_of_full a h)⟩

/-- Settles O5: the target is written in the popped state, whose registers and memory are those of the old one. -/
theorem popWritesTopOrUnderflows : Obligations.PopWritesTopOrUnderflows := by
  refine fun a s ha => ⟨rfl, ?top, ?empty⟩
  case top =>
    intro v st h
    have written : TargetWritten a v s (advance 2 (putTarget a v (s.setStack st))) :=
      targetWritten_putTarget a v (s.setStack st)
    exact ⟨_, exec_pop_of_stack_cons ha h, by simp [advance], written, by simp [advance], by simp [advance],
      by simp [KeepsStatusAndOutput, advance]⟩
  case empty => exact fun h => faultsWith_of_exec (exec_pop_of_stack_nil a h)

end Sys2Proof.Machine
end

section
/-! Comparisons (spec/42_compare.md R96, R97): the word each comparison writes, and obligations O6 and O7. -/

namespace Sys2Proof.Machine

theorem exec_eq (a : Dst) (b c : Src) (s : State) :
    exec (.eq a b c) s = commit s (assign a (eqResult (resolveValue b s) (resolveValue c s)) 4 s) := rfl

theorem exec_gt (a : Dst) (b c : Src) (s : State) :
    exec (.gt a b c) s = commit s (assign a (gtResult (resolveValue b s) (resolveValue c s)) 4 s) := rfl

/-- The word of a decided proposition. -/
theorem boolWord_decide (p : Prop) [Decidable p] : boolWord (decide p) = if p then 1#16 else 0#16 := by
  simp only [boolWord, decide_eq_true_eq]

theorem eqResult_eq_ite (v w : Word) : eqResult v w = if v = w then 1#16 else 0#16 := boolWord_decide _

theorem gtResult_eq_ite (v w : Word) : gtResult v w = if v.toNat > w.toNat then 1#16 else 0#16 := boolWord_decide _

/-- Settles O6: the step is one assignment of `eqResult` of the words read in the old state. -/
theorem eqWritesEqualityOfWords : Obligations.EqWritesEqualityOfWords :=
  fun a b c s ha => ⟨rfl, eqResult_eq_ite (resolveValue b s) _ ▸ assigns_of_exec ha (exec_eq a b c s)⟩

/-- Settles O7: the step is one assignment of `gtResult` of the words read in the old state. -/
theorem gtWritesUnsignedComparison : Obligations.GtWritesUnsignedComparison :=
  fun a b c s ha => ⟨rfl, gtResult_eq_ite (resolveValue b s) _ ▸ assigns_of_exec ha (exec_gt a b c s)⟩

end Sys2Proof.Machine
end

section
/-! Jumps and branches (spec/43_branch.md R98 to R100): each sets pc alone, a branch by whether its condition is zero, and
obligations O8, O9 and O10. -/

namespace Sys2Proof.Machine

theorem exec_jmp (a : Src) (s : State) : exec (.jmp a) s = .next (s.setPc (resolveValue a s)) := rfl

theorem wordIsTrue_iff (v : Word) : wordIsTrue v = true ↔ v ≠ 0#16 := decide_eq_true_iff

/-- R99: taken or not, a branch sets pc alone. -/
theorem exec_jt (a b : Src) (s : State) : exec (.jt a b) s =
    .next (s.setPc (if wordIsTrue (resolveValue a s) then resolveValue b s else s.pc + 3#16)) :=
  congrArg Host.Outcome.next (apply_ite s.setPc ..).symm

/-- R100: as R99, with the ways out exchanged. -/
theorem exec_jf (a b : Src) (s : State) : exec (.jf a b) s =
    .next (s.setPc (if wordIsTrue (resolveValue a s) then s.pc + 3#16 else resolveValue b s)) :=
  congrArg Host.Outcome.next (apply_ite s.setPc ..).symm

/-- Settles O8: the step is `setPc`, which checks no target. -/
theorem jmpSetsPcOnly : Obligations.JmpSetsPcOnly := fun a s => ⟨rfl, exec_jmp a s⟩

/-- Settles O9: the step sets pc by `wordIsTrue` of the condition, which every word but 0 meets. -/
theorem jtJumpsOnNonZero : Obligations.JtJumpsOnNonZero := by
  refine fun a b s => ⟨rfl, ?_⟩
  rw [exec_jt, if_congr (wordIsTrue_iff _) rfl rfl]
  rfl

/-- Settles O10: the step falls through where `jt` jumps, so it jumps on the word 0 alone. -/
theorem jfJumpsOnZero : Obligations.JfJumpsOnZero := by
  refine fun a b s => ⟨rfl, ?_⟩
  rw [exec_jf, if_congr (wordIsTrue_iff _) rfl rfl, ite_not]
  rfl

end Sys2Proof.Machine
end

section
/-! Arithmetic and logic (spec/44_alu.md R101 to R106): each instruction's step as one assignment of its result, the two results
that have a second form or a fault, and obligations O11 to O16. -/

namespace Sys2Proof.Machine

theorem exec_add (a : Dst) (b c : Src) (s : State) :
    exec (.add a b c) s = commit s (assign a (aluAdd (resolveValue b s) (resolveValue c s)) 4 s) := rfl

theorem exec_mult (a : Dst) (b c : Src) (s : State) :
    exec (.mult a b c) s = commit s (assign a (aluMult (resolveValue b s) (resolveValue c s)) 4 s) := rfl

theorem exec_mod (a : Dst) (b c : Src) (s : State) : exec (.mod a b c) s =
    commit s ((aluMod (resolveValue b s) (resolveValue c s)).bind fun v => assign a v 4 s) := rfl

theorem exec_and (a : Dst) (b c : Src) {s : State} {m : AndOrWide} (h : s.params.andOrWide = m) : exec (.and a b c) s =
    commit s (assign a (aluAnd m (resolveValue b s) (resolveValue c s)) 4 s) := h ▸ rfl

theorem exec_or (a : Dst) (b c : Src) {s : State} {m : AndOrWide} (h : s.params.andOrWide = m) : exec (.or a b c) s =
    commit s (assign a (aluOr m (resolveValue b s) (resolveValue c s)) 4 s) := h ▸ rfl

theorem exec_not (a : Dst) (b : Src) (s : State) :
    exec (.not a b) s = commit s (assign a (aluNot (resolveValue b s)) 3 s) := rfl

theorem aluMod_of_ne_zero (v : Word) {w : Word} (h : w ≠ 0#16) : aluMod v w = .ok (BitVec.ofNat 16 (v.toNat % w.toNat)) :=
  if_neg h

theorem aluMod_of_eq_zero (v : Word) {w : Word} (h : w = 0#16) : aluMod v w = .error .divideByZero := if_pos h

theorem exec_mod_of_ne_zero (a : Dst) (b : Src) {c : Src} {s : State} (h : resolveValue c s ≠ 0#16) : exec (.mod a b c) s =
    commit s (assign a (BitVec.ofNat 16 ((resolveValue b s).toNat % (resolveValue c s).toNat)) 4 s) := by
  rw [exec_mod, aluMod_of_ne_zero _ h]; rfl

theorem exec_mod_of_eq_zero (a : Dst) (b : Src) {c : Src} {s : State} (h : resolveValue c s = 0#16) :
    exec (.mod a b c) s = .next (raiseFault .divideByZero s) := by
  rw [exec_mod, aluMod_of_eq_zero _ h]; rfl

/-- The mask 0x7FFF keeps the low 15 bits. -/
theorem toNat_and_mask15 (v : Word) : (v &&& 0x7FFF#16).toNat = v.toNat % 32768 := by
  rw [BitVec.toNat_and]
  exact Nat.and_two_pow_sub_one_eq_mod v.toNat 15

/-- R106: NOT16 is 65535 less the word, of which the mask leaves 32767 less the word's low 15 bits. -/
theorem aluNot_eq_sub (v : Word) : aluNot v = BitVec.ofNat 16 (32767 - v.toNat % 32768) := by
  have not16 : v ^^^ 0xFFFF#16 = ~~~v := BitVec.xor_allOnes
  apply BitVec.eq_of_toNat_eq
  rw [aluNot, toNat_and_mask15, not16, BitVec.toNat_not, BitVec.toNat_ofNat]
  omega

/-- Settles O11: the step is one assignment of `aluAdd` of the words read in the old state. -/
theorem addWritesSumModulo32768 : Obligations.AddWritesSumModulo32768 :=
  fun a b c s ha => ⟨rfl, assigns_of_exec ha (exec_add a b c s)⟩

/-- Settles O12: the step is one assignment of `aluMult` of the words read in the old state. -/
theorem multWritesProductModulo32768 : Obligations.MultWritesProductModulo32768 :=
  fun a b c s ha => ⟨rfl, assigns_of_exec ha (exec_mult a b c s)⟩

/-- Settles O13: whether the divisor is 0 decides between the remainder and the fault. -/
theorem modWritesRemainderOrFaults : Obligations.ModWritesRemainderOrFaults :=
  fun a b _ _ ha => ⟨rfl, fun h => assigns_of_exec ha (exec_mod_of_ne_zero a b h),
    fun h => faultsWith_of_exec (exec_mod_of_eq_zero a b h)⟩

/-- Settles O14: the step is one assignment of `aluAnd`, which masks by the state's AND_OR_WIDE. -/
theorem andWritesBitwiseAnd : Obligations.AndWritesBitwiseAnd :=
  fun a b c _ ha => ⟨rfl, fun raw16 => assigns_of_exec ha (exec_and a b c raw16),
    fun mask15 => assigns_of_exec ha (exec_and a b c mask15)⟩

/-- Settles O15: the step is one assignment of `aluOr`, which masks by the state's AND_OR_WIDE. -/
theorem orWritesBitwiseOr : Obligations.OrWritesBitwiseOr :=
  fun a b c _ ha => ⟨rfl, fun raw16 => assigns_of_exec ha (exec_or a b c raw16),
    fun mask15 => assigns_of_exec ha (exec_or a b c mask15)⟩

/-- Settles O16: the step is one assignment of `aluNot`, whose bitwise form equals the form by subtraction. -/
theorem notWritesFifteenBitComplement : Obligations.NotWritesFifteenBitComplement := by
  intro a b s ha
  have assigned : Assigns (.not a b) a (aluNot (resolveValue b s)) 3 s := assigns_of_exec ha (exec_not a b s)
  exact ⟨rfl, assigned, aluNot_eq_sub (resolveValue b s) ▸ assigned⟩

end Sys2Proof.Machine
end

section
/-! Memory loads and stores (spec/45_memory_access.md R109, R110): each instruction's step by whether its effective address is in
range, and obligations O18 and O19. -/

namespace Sys2Proof.Machine

theorem exec_rmem (a : Dst) (b : Src) (s : State) :
    exec (.rmem a b) s = commit s ((memRead (resolveValue b s) s).bind fun v => assign a v 3 s) := rfl

theorem exec_rmem_of_lt (a : Dst) {b : Src} {s : State} (h : (resolveValue b s).toNat < 32768) :
    exec (.rmem a b) s = commit s (assign a (s.mem.read (resolveValue b s).toNat) 3 s) := by
  rw [exec_rmem, memRead_of_lt s h]; rfl

theorem exec_rmem_of_ge (a : Dst) {b : Src} {s : State} (h : 32768 ≤ (resolveValue b s).toNat) :
    exec (.rmem a b) s = .next (raiseFault .addressRange s) := by
  rw [exec_rmem, memRead_of_ge s h]; rfl

theorem exec_wmem (a b : Src) (s : State) :
    exec (.wmem a b) s = commit s ((memWrite (resolveValue a s) (resolveValue b s) s).map (advance 3)) := rfl

theorem exec_wmem_of_lt {a : Src} (b : Src) {s : State} (h : (resolveValue a s).toNat < 32768) : exec (.wmem a b) s =
    .next (advance 3 (s.setMem (s.mem.write (resolveValue a s).toNat (resolveValue b s)))) := by
  rw [exec_wmem, memWrite_of_lt _ s h]; rfl

theorem exec_wmem_of_ge {a : Src} (b : Src) {s : State} (h : 32768 ≤ (resolveValue a s).toNat) :
    exec (.wmem a b) s = .next (raiseFault .addressRange s) := by
  rw [exec_wmem, memWrite_of_ge _ s h]; rfl

/-- Settles O18: in range the step is one assignment of the word read in the old state, and otherwise its read's fault. -/
theorem rmemLoadsWordOrFaults : Obligations.RmemLoadsWordOrFaults :=
  fun a _ _ ha => ⟨rfl, fun h => assigns_of_exec ha (exec_rmem_of_lt a h), fun h => faultsWith_of_exec (exec_rmem_of_ge a h)⟩

/-- Settles O19: in range the step is one write and `advance 3`, which set memory and pc alone, and otherwise the write's
fault. -/
theorem wmemStoresWordOrFaults : Obligations.WmemStoresWordOrFaults := by
  refine fun a b s => ⟨rfl, ?inRange, ?outOfRange⟩
  case inRange =>
    intro h
    refine ⟨_, exec_wmem_of_lt b h, rfl, fun x => ?readBack, fun _ => rfl, rfl, rfl, rfl, rfl, rfl, rfl⟩
    rw [advance, State.setPc_mem, State.setMem_mem, Memory.read_write]
    exact if_congr eq_comm rfl rfl
  case outOfRange => exact fun h => faultsWith_of_exec (exec_wmem_of_ge b h)

end Sys2Proof.Machine
end

section
/-! Calls and returns (spec/46_call_return.md R111, R112): each instruction's step by what the stack holds, and obligations O23 and
O24. -/

namespace Sys2Proof.Machine

theorem exec_call (a : Src) (s : State) :
    exec (.call a) s = commit s ((push (s.pc + 2#16) s).map fun t => t.setPc (resolveValue a s)) := rfl

theorem exec_call_of_room {s : State} (a : Src) (h : s.params.stackCapacity ≠ some s.stack.length) :
    exec (.call a) s = .next ((s.setStack ((s.pc + 2#16) :: s.stack)).setPc (resolveValue a s)) := by
  rw [exec_call, push_of_room _ h]; rfl

theorem exec_call_of_full {s : State} (a : Src) (h : s.params.stackCapacity = some s.stack.length) :
    exec (.call a) s = .next (raiseFault .stackOverflow s) := by
  rw [exec_call, push_of_full _ h]; rfl

theorem exec_ret_of_stack_nil {s : State} (h : s.stack = []) : exec .ret s = .next (enterHalted s) := by
  simp only [exec, execRet, pop?_of_stack_nil h]

theorem exec_ret_of_stack_cons {s : State} {v : Word} {st : List Word} (h : s.stack = v :: st) :
    exec .ret s = .next ((s.setStack st).setPc v) := by
  simp only [exec, execRet, pop?_of_stack_cons h]

/-- Settles O23: whether the depth equals the capacity decides between the pushed return address with the jump and the fault. -/
theorem callPushesReturnAddressOrOverflows : Obligations.CallPushesReturnAddressOrOverflows :=
  fun a _ => ⟨rfl, exec_call_of_room a, fun h => faultsWith_of_exec (exec_call_of_full a h)⟩

/-- Settles O24: a top word becomes pc, and on an empty stack the step is `enterHalted`, which is the step of `halt`. -/
theorem retPopsPcOrHalts : Obligations.RetPopsPcOrHalts := by
  refine ⟨rfl, fun s => ⟨fun v st h => exec_ret_of_stack_cons h, fun h => ?empty⟩⟩
  case empty =>
    have halted : runResult (enterHalted s).status = some .halted := runResult_of_halted (by simp) (by simp)
    exact ⟨enterHalted s, exec_ret_of_stack_nil h, rfl, halted, exec_halt s⟩

end Sys2Proof.Machine
end

section
/-! Character input and output (spec/47_io.md R113, R114): each instruction's step by its cases, what RUN makes of a suspended
step, and obligations O25 and O26. -/

namespace Sys2Proof.Machine

theorem exec_out (a : Src) (s : State) : exec (.out a) s = .next (advance 2 (emit ((resolveValue a s).setWidth 8) s)) := rfl

/-- R113: the low byte of a word is the word modulo 256. -/
theorem setWidth_eight_eq_ofNat_mod (v : Word) : v.setWidth 8 = BitVec.ofNat 8 (v.toNat % 256) := by
  apply BitVec.eq_of_toNat_eq
  rw [BitVec.toNat_setWidth, BitVec.toNat_ofNat, Nat.mod_mod]

theorem dequeue?_of_inq_nil {s : State} (h : s.inq = []) : dequeue? s = none := by simp only [dequeue?, h]

theorem dequeue?_of_inq_cons {s : State} {v : Word} {q : List Word} (h : s.inq = v :: q) :
    dequeue? s = some (v, s.setInq q) := by simp only [dequeue?, h]

theorem exec_inp_of_inq_nil {s : State} (a : Dst) (h : s.inq = []) : exec (.inp a) s = .next (enterSuspended s) := by
  simp only [exec, execInp, dequeue?_of_inq_nil h]

theorem exec_inp_of_inq_cons {s : State} {a : Dst} {v : Word} {q : List Word} (ha : a.wellFormed = true) (h : s.inq = v :: q) :
    exec (.inp a) s = .next (advance 2 (putTarget a v (s.setInq q))) := by
  simp only [exec, execInp, dequeue?_of_inq_cons h, assign_wf ha, commit_ok]

@[simp] theorem enterSuspended_status (s : State) :
    (enterSuspended s).status = { s.status with state := .suspended, active := false } := rfl

/-- R137: no run is active and STATE is Suspended. -/
theorem runResult_of_suspended {x : Status} (hs : x.state = .suspended) (ha : x.active = false) :
    runResult x = some .suspended := by
  simp [runResult, hs, ha]

/-- R133, the row of Suspended. -/
theorem hostRun_of_suspended {s : State} (h : s.status.state = .suspended) : hostRun s = .next (beginRun s) := by
  simp [hostRun, h]

/-- RUN sets the two STATUS fields that a suspension sets, so it leaves nothing of the suspension. -/
@[simp] theorem beginRun_enterSuspended (s : State) : beginRun (enterSuspended s) = beginRun s := rfl

/-- An enabled engine is Running with ACTIVE 1 already, which is all that `beginRun` sets. -/
theorem beginRun_of_enabled {s : State} (h : enabled s = true) : beginRun s = s := by
  obtain ⟨running, active⟩ := (enabled_iff s).1 h
  rw [beginRun, ← running, ← active]
  rfl

/-- R114, R133: RUN gives back the state in which an enabled engine's step suspended. -/
theorem hostRun_enterSuspended {s : State} (h : enabled s = true) : hostRun (enterSuspended s) = .next s := by
  rw [hostRun_of_suspended (by simp), beginRun_enterSuspended, beginRun_of_enabled h]

/-- Settles O25: the step is one `emit` of the low byte and `advance 2`. -/
theorem outEmitsLowByte : Obligations.OutEmitsLowByte :=
  fun a s => ⟨rfl, setWidth_eight_eq_ofNat_mod (resolveValue a s) ▸ exec_out a s⟩

/-- Settles O26: with an oldest word the target is written in the dequeued state, whose registers and memory are those of the old
one; on an empty queue the step is `enterSuspended`, which RUN undoes. -/
theorem inDequeuesOrSuspends : Obligations.InDequeuesOrSuspends := by
  refine fun a s ha => ⟨rfl, ?oldest, ?empty⟩
  case oldest =>
    intro v q h
    have written : TargetWritten a v s (advance 2 (putTarget a v (s.setInq q))) := targetWritten_putTarget a v (s.setInq q)
    exact ⟨_, exec_inp_of_inq_cons ha h, by simp [advance], written, by simp [advance], by simp [advance],
      by simp [KeepsStatusAndOutput, advance]⟩
  case empty =>
    intro h
    have suspended : runResult (enterSuspended s).status = some .suspended := runResult_of_suspended (by simp) (by simp)
    exact ⟨enterSuspended s, exec_inp_of_inq_nil a h, rfl, suspended, hostRun_enterSuspended⟩

end Sys2Proof.Machine
end

section
/-! The decoder (spec/30_encoding.md R66 to R90): what a list of words that decodes was, and obligations O27 to O30 and O32. -/

namespace Sys2Proof

/-- The words that decode under an opcode number are that number and operands that can be encoded. -/
theorem of_decodeOperands {op : Nat} {ws rest : List Word} {i : Instr} (h : decodeOperands op ws = .ok (i, rest)) :
    i.wellFormed = true ∧ BitVec.ofNat 16 op :: ws = encode i ++ rest := by
  match op, h with
  | 0, h | 18, h | 21, h =>
    cases h
    exact ⟨rfl, rfl⟩
  | 2, h | 6, h | 17, h | 19, h =>
    obtain ⟨a, rfl, ha, rfl⟩ := of_decodeV h
    exact ⟨ha, rfl⟩
  | 3, h | 20, h =>
    obtain ⟨a, rfl, ha, rfl⟩ := of_decodeT h
    exact ⟨ha, rfl⟩
  | 1, h | 14, h | 15, h =>
    obtain ⟨a, b, rfl, ha, hb, rfl⟩ := of_decodeTV h
    exact ⟨by simp [Instr.wellFormed, ha, hb], rfl⟩
  | 7, h | 8, h | 16, h =>
    obtain ⟨a, b, rfl, ha, hb, rfl⟩ := of_decodeVV h
    exact ⟨by simp [Instr.wellFormed, ha, hb], rfl⟩
  | 4, h | 5, h | 9, h | 10, h | 11, h | 12, h | 13, h =>
    obtain ⟨a, b, c, rfl, ha, hb, hc, rfl⟩ := of_decodeTVV h
    exact ⟨by simp [Instr.wellFormed, ha, hb, hc], rfl⟩
  | op + 22, h => cases (decodeOperands_illegal (Nat.le_add_left 22 op)).symm.trans h

/-- R90: decoding refuses every list of words that does not begin with the encoding of a well-formed instruction. -/
theorem of_decode {ws rest : List Word} {i : Instr} (h : decode ws = .ok (i, rest)) :
    i.wellFormed = true ∧ ws = encode i ++ rest := by
  cases ws with
  | nil => cases h
  | cons op ws =>
    obtain ⟨hi, hws⟩ := of_decodeOperands h
    rw [BitVec.ofNat_toNat, BitVec.setWidth_eq] at hws
    exact ⟨hi, hws⟩

/-- Settles O27: the opcode word selects the format, which gives back its operands. -/
theorem decodeOfEncode : Obligations.DecodeOfEncode := fun _ rest h => decode_encode_append h rest

/-- Settles O28: by the formats of the opcode map, each of which decodes only words of its own form. -/
theorem decodedWordsAreTheEncoding : Obligations.DecodedWordsAreTheEncoding := fun _ _ _ => of_decode

/-- Settles O29, by running the decoder on the closed words. -/
theorem specWordsDecodeAsWritten : Obligations.SpecWordsDecodeAsWritten := by
  unfold Obligations.SpecWordsDecodeAsWritten
  decide

/-- Settles O30: a literal and an address are their own word, the word of a register is its encoding in both roles, and the
words above are refused in both. -/
theorem operandWordMeansByItsClass : Obligations.OperandWordMeansByItsClass := by
  refine fun w s => ⟨fun hw => ?literal, fun r hw => ?register, fun hw => ⟨Src.ofWord_invalid hw, Dst.ofWord_invalid hw⟩⟩
  case literal =>
    have hlt : w.toNat < 32768 := Nat.lt_succ_of_le hw
    exact ⟨⟨.lit w, if_pos hlt, rfl⟩, if_pos hlt⟩
  case register =>
    obtain rfl : w = BitVec.ofNat 16 (32768 + r.val) := by rw [← hw, BitVec.ofNat_toNat, BitVec.setWidth_eq]
    exact ⟨⟨.reg r, Src.ofWord_toWord (a := .reg r) rfl, rfl⟩, Dst.ofWord_toWord (a := .reg r) rfl⟩

end Sys2Proof

namespace Sys2Proof.Machine

/-- Settles O32: an enabled step is the fetch, the decoder and exec, and nothing else. -/
theorem stepRunsDecodedInstruction : Obligations.StepRunsDecodedInstruction := fun _ _ _ => step_of_decode_ok

/-- R90: only instructions that can be encoded are fetched. -/
theorem wellFormed_of_fetchDecode {s : State} {i : Instr} (h : fetchDecode s = .ok i) : i.wellFormed = true := by
  unfold fetchDecode at h
  split at h
  case h_1 d hd =>
    cases h
    exact (of_decode hd).1
  case h_2 => cases h

end Sys2Proof.Machine
end

section
/-! The assembly line of an instruction (spec/30_encoding.md R82) and the decoding of a word sequence by the widths of its opcode
words (R81), and obligations O31 and O60. -/

namespace Sys2Proof.Machine

section
variable {table : List (String × Nat)}

/-- A line of a mnemonic with as many operands as its opcode has slots. -/
theorem instr_words {mnemonic : String} {op : Nat} {ops : List AsmOperand} {ws : List Word}
    (hop : opcodeOf mnemonic = some op) (hlen : opcodeWidth op = some (1 + ops.length))
    (hws : operandWords table ops = some ws) :
    (AsmLine.instr mnemonic ops).words table = some (BitVec.ofNat 16 op :: ws) := by
  simp [AsmLine.words, hop, hws, hlen]

theorem operandWords_cons {o : AsmOperand} {os : List AsmOperand} {w : Word} {ws : List Word} (ho : o.toWord table = some w)
    (hos : operandWords table os = some ws) : operandWords table (o :: os) = some (w :: ws) := by
  simp [operandWords, ho, hos]

/-- R82: the line of an instruction holds no label, so that every label table gives its encoding. -/
theorem asmLine_words {i : Instr} (h : i.wellFormed = true) : (asmLine i).words table = some (encode i) := by
  cases i <;> simp only [Instr.wellFormed, Bool.and_eq_true] at h
  case halt | ret | noop => exact instr_words (by decide) rfl rfl
  case push a | jmp a | call a | out a =>
    exact instr_words (by decide) rfl (operandWords_cons (asmSrc_toWord h table) rfl)
  case pop a | inp a => exact instr_words (by decide) rfl (operandWords_cons (asmDst_toWord h table) rfl)
  case set a b | not a b | rmem a b =>
    exact instr_words (by decide) rfl
      (operandWords_cons (asmDst_toWord h.1 table) (operandWords_cons (asmSrc_toWord h.2 table) rfl))
  case jt a b | jf a b | wmem a b =>
    exact instr_words (by decide) rfl
      (operandWords_cons (asmSrc_toWord h.1 table) (operandWords_cons (asmSrc_toWord h.2 table) rfl))
  case eq a b c | gt a b c | add a b c | mult a b c | mod a b c | and a b c | or a b c =>
    obtain ⟨⟨ha, hb⟩, hc⟩ := h
    exact instr_words (by decide) rfl (operandWords_cons (asmDst_toWord ha table)
      (operandWords_cons (asmSrc_toWord hb table) (operandWords_cons (asmSrc_toWord hc table) rfl)))

theorem lineWords_asmLine {i : Instr} (h : i.wellFormed = true) : lineWords table [asmLine i] = some (encode i) := by
  simp [lineWords, asmLine_words h]

end

/-- The family EncodedWidth, for every instruction at once. -/
theorem encodedWidth : ∀ i : Instr, Laws.EncodedWidth.Statement i
  | .halt => Laws.EncodedWidth.halt
  | .set a b => Laws.EncodedWidth.set a b
  | .push a => Laws.EncodedWidth.push a
  | .pop a => Laws.EncodedWidth.pop a
  | .eq a b c => Laws.EncodedWidth.eq a b c
  | .gt a b c => Laws.EncodedWidth.gt a b c
  | .jmp a => Laws.EncodedWidth.jmp a
  | .jt a b => Laws.EncodedWidth.jt a b
  | .jf a b => Laws.EncodedWidth.jf a b
  | .add a b c => Laws.EncodedWidth.add a b c
  | .mult a b c => Laws.EncodedWidth.mult a b c
  | .mod a b c => Laws.EncodedWidth.mod a b c
  | .and a b c => Laws.EncodedWidth.and a b c
  | .or a b c => Laws.EncodedWidth.or a b c
  | .not a b => Laws.EncodedWidth.not a b
  | .rmem a b => Laws.EncodedWidth.rmem a b
  | .wmem a b => Laws.EncodedWidth.wmem a b
  | .call a => Laws.EncodedWidth.call a
  | .ret => Laws.EncodedWidth.ret
  | .out a => Laws.EncodedWidth.out a
  | .inp a => Laws.EncodedWidth.inp a
  | .noop => Laws.EncodedWidth.noop

/-- R81: an instruction is as long as its opcode word alone says. -/
theorem encode_eq_cons (i : Instr) : ∃ op ws, encode i = op :: ws ∧ wordsTaken op = (encode i).length := by
  obtain ⟨op, ws, henc, hw⟩ := encodedWidth i
  exact ⟨op, ws, henc, by rw [wordsTaken, hw]; rfl⟩

/-- The words taken at a well-formed instruction's opcode word are written as its line. -/
theorem codeLines_encode {i : Instr} (h : i.wellFormed = true) : codeLines (encode i) = [asmLine i] := by
  have decoded := decode_encode_append h []
  rw [List.append_nil] at decoded
  simp only [codeLines, decoded]

/-- The words taken at an opcode word leave none over when they decode, so their lines assemble to all of them. -/
theorem lineWords_codeLines (table : List (String × Nat)) (op : Word) (ws : List Word) :
    lineWords table (codeLines ((op :: ws).take (wordsTaken op))) = some ((op :: ws).take (wordsTaken op)) := by
  cases hd : decode ((op :: ws).take (wordsTaken op)) with
  | error e =>
    simp only [codeLines, hd]
    exact lineWords_raw table _
  | ok d =>
    obtain ⟨i, rest⟩ := d
    obtain ⟨hi, hws⟩ := of_decode hd
    obtain ⟨op', ws', henc, hlen⟩ := encode_eq_cons i
    have hop : op = op' := by
      obtain ⟨n, hn⟩ := Nat.exists_eq_add_of_le' (wordsTaken_pos op)
      rw [henc, hn, List.take_succ_cons] at hws
      exact (List.cons.inj hws).1
    have hrest : rest = [] := by
      have hle : (encode i ++ rest).length ≤ wordsTaken op := hws ▸ List.length_take_le _ _
      rw [List.length_append, hop, hlen] at hle
      exact List.eq_nil_of_length_eq_zero (by omega)
    rw [hws, hrest, List.append_nil, codeLines_encode hi]
    exact lineWords_asmLine hi

/-- The lines of a whole sequence assemble to it, piece by piece. -/
theorem lineWords_disassemble (table : List (String × Nat)) (n : Nat) (ws : List Word) (h : ws.length ≤ n) :
    lineWords table (disassemble n ws) = some ws := by
  induction n generalizing ws with
  | zero => rw [List.eq_nil_of_length_eq_zero (Nat.le_zero.1 h)]; rfl
  | succ n ih =>
    cases ws with
    | nil => rfl
    | cons op ws =>
      have hpos := wordsTaken_pos op
      have rest := ih ((op :: ws).drop (wordsTaken op)) (by simp only [List.length_drop, List.length_cons] at h ⊢; omega)
      rw [disassemble_cons, lineWords_append (lineWords_codeLines table op ws) rest, List.take_append_drop]

theorem disassemble_encode_append (n : Nat) {i : Instr} (rest : List Word) (h : i.wellFormed = true) :
    disassemble (n + 1) (encode i ++ rest) = asmLine i :: disassemble n rest := by
  obtain ⟨op, ws, henc, hlen⟩ := encode_eq_cons i
  have cut := disassemble_cons n op (ws ++ rest)
  rw [hlen, ← List.cons_append, ← henc, List.take_left, List.drop_left, codeLines_encode h] at cut
  exact cut

/-- Settles O31: the line of an instruction means its encoding under the empty label table as under every other. -/
theorem assemblyLineGivesEncoding : Obligations.AssemblyLineGivesEncoding := fun _ => lineWords_asmLine

/-- Settles O60: at a legal opcode word the words taken are those of its width, and every piece's lines assemble to the piece. -/
theorem sequenceDecodingFollowsWidths : Obligations.SequenceDecodingFollowsWidths := by
  refine ⟨fun n op ws hop => ?legal, fun n i rest hi => disassemble_encode_append n rest hi,
    fun n ws h => lineWords_disassemble _ n ws h⟩
  case legal =>
    obtain ⟨k, hk, -, -⟩ := opcodeWidth_legal hop
    have taken : wordsTaken op = k := by rw [wordsTaken, hk]; rfl
    exact ⟨k, codeLines ((op :: ws).take k), hk, taken ▸ disassemble_cons n op ws, taken ▸ lineWords_codeLines _ op ws⟩

end Sys2Proof.Machine
end

section
/-! What every step keeps: the invariant (spec/10_state.md R29, R30, R35, spec/20_memory.md R40) and the parameters (R17), and
obligations O42, O43 and O50. -/

namespace Sys2Proof.Machine

/-- R29: CAUSE is NONE outside Faulted, so that an engine that is not Faulted may go to any other state but Faulted. -/
theorem legal_of_not_faulted {x : Status} (h : x.legal) (hx : x.state ≠ .faulted) {e : EngineState} {b : Bool}
    (he : e ≠ .faulted) (hb : b = true → e = .running) : Status.legal { x with state := e, active := b } :=
  ⟨iff_of_true (h.1.2 hx) he, hb⟩

section
variable {s : State} (h : Inv s) (hs : s.status.state ≠ .faulted)
include h hs

theorem inv_enterHalted : Inv (enterHalted s) :=
  inv_setStatus h (legal_of_not_faulted h.status hs (by simp) (by simp))

theorem inv_enterSuspended : Inv (enterSuspended s) :=
  inv_setStatus h (legal_of_not_faulted h.status hs (by simp) (by simp))

theorem inv_beginRun : Inv (beginRun s) :=
  inv_setStatus h (legal_of_not_faulted h.status hs (by simp) (by simp))

/-- An instruction's effect keeps the invariant: it writes storable targets only, pushes where there is room, and stops an engine
that is not Faulted. -/
theorem inv_of_effect {i : Instr} {t : State} (he : Effect i s t) : Inv t := by
  have assigned (d : Dst) (v : Word) (n : Nat) (hd : Storable d) : Inv (advance n (putTarget d v s)) :=
    inv_advance (inv_putTarget h v hd) n
  cases i
  case halt => obtain rfl := he; exact inv_enterHalted h hs
  case noop => obtain rfl := he; exact inv_advance h 1
  case jmp a => obtain rfl := he; exact inv_setPc h _
  case jt a b | jf a b =>
    obtain rfl := he
    split
    all_goals exact inv_setPc h _
  case out a => obtain rfl := he; exact inv_advance (inv_setOuts h _) 2
  case push a => obtain ⟨hroom, rfl⟩ := he; exact inv_advance (inv_pushed h _ hroom) 2
  case call a => obtain ⟨hroom, rfl⟩ := he; exact inv_setPc (inv_pushed h _ hroom) _
  case ret =>
    obtain ⟨-, rfl⟩ | ⟨v, st, hst, rfl⟩ := he
    · exact inv_enterHalted h hs
    · exact inv_setPc (inv_popped h hst) v
  case pop a =>
    obtain ⟨hd, v, st, hst, rfl⟩ := he
    exact inv_advance (inv_putTarget (inv_popped h hst) v hd) 2
  case inp a =>
    obtain ⟨-, rfl⟩ | ⟨hd, v, q, hq, rfl⟩ := he
    · exact inv_enterSuspended h hs
    · exact inv_advance (inv_putTarget (inv_dequeued h hq) v hd) 2
  case wmem a b => obtain ⟨ha, rfl⟩ := he; exact inv_advance (inv_storeWord h _ ha) 3
  case mod a b c => obtain ⟨hd, v, -, rfl⟩ := he; exact assigned a v 4 hd
  case rmem a b => obtain ⟨hd, -, rfl⟩ := he; exact assigned a _ 3 hd
  case set a b | not a b => obtain ⟨hd, rfl⟩ := he; exact assigned a _ 3 hd
  case eq a b c | gt a b c | add a b c | mult a b c | and a b c | or a b c =>
    obtain ⟨hd, rfl⟩ := he
    exact assigned a _ 4 hd

end

/-- A newly constructed engine meets the invariant, whatever its parameters (R39). -/
theorem inv_constructed {m : Memory} (h : m.wf = true) (p : Params) : Inv { State.reset with mem := m, params := p } :=
  ⟨h, (by decide : Status.reset.legal), fun c _ => Nat.zero_le c, fun c _ => Nat.zero_le c⟩

theorem inv_enqueue {s : State} (h : Inv s) (w : Word) (hroom : s.params.inputQueueCapacity ≠ some s.inq.length) :
    Inv (enqueue w s) := by
  refine ⟨h.mem, h.status, h.stack, fun c hc => ?_⟩
  have hc : s.params.inputQueueCapacity = some c := hc
  have hle : s.inq.length ≤ c := h.inq c hc
  have hne : s.inq.length ≠ c := fun e => hroom (e ▸ hc)
  simp only [enqueue, State.setInq_inq, List.length_append, List.length_singleton]
  omega

theorem inv_of_hostDo {c : HostCmd} {s t : State} (h : Inv s) (ha : s.status.active = false) (hd : hostDo c s = .next t) :
    Inv t := by
  obtain ⟨bytes, u, -, hu, rfl⟩ | ⟨w, -, hroom, rfl⟩ | ⟨-, hs, rfl⟩ | ⟨-, -, rfl⟩ := hostDo_cases ha hd
  · obtain ⟨-, hlen, rfl⟩ := loadImage_ok hu
    have image : (imageFrom 0 (pairBytes bytes)).wf = true :=
      wfFrom_imageFrom _ 0 (by rw [length_pairBytes, Nat.zero_add]; exact hlen)
    exact inv_setHost (inv_constructed image _) _
  · exact inv_enqueue h w hroom
  · exact inv_beginRun h (by rcases hs with hs | hs <;> simp [hs])
  · exact h

/-- R17: no host command sets a parameter; LOAD constructs the new engine with those of the old one. -/
theorem hostDo_params {c : HostCmd} {s t : State} (ha : s.status.active = false) (hd : hostDo c s = .next t) :
    t.params = s.params := by
  obtain ⟨bytes, u, -, hu, rfl⟩ | ⟨w, -, -, rfl⟩ | ⟨-, -, rfl⟩ | ⟨-, -, rfl⟩ := hostDo_cases ha hd
  · obtain ⟨-, -, rfl⟩ := loadImage_ok hu
    rfl
  all_goals rfl

/-- Everything a step can do: an enabled engine takes a fault or an effect, and otherwise the host does nothing or one command. -/
theorem step_cases {s t : State} (h : step s = .next t) :
    (enabled s = true ∧ ((∃ c, c ≠ .none ∧ t = raiseFault c s) ∨ ∃ i, fetchDecode s = .ok i ∧ Effect i s t)) ∨
    (enabled s = false ∧ (t = s ∨ ∃ c cs, s.host = c :: cs ∧ s.status.active = false ∧ hostDo c (s.setHost cs) = .next t)) := by
  cases he : enabled s with
  | true =>
    refine .inl ⟨rfl, ?_⟩
    obtain ⟨c, hc, e⟩ | ⟨i, u, hi, -, e, heff⟩ := step_enabled_cases he
    · exact .inl ⟨c, hc, Host.Outcome.next.inj (h.symm.trans e)⟩
    · obtain rfl : t = u := Host.Outcome.next.inj (h.symm.trans e)
      exact .inr ⟨i, hi, heff⟩
  | false =>
    obtain ⟨-, rfl⟩ | command := step_host_cases he h
    · exact .inr ⟨rfl, .inl rfl⟩
    · exact .inr ⟨rfl, .inr command⟩

/-- Settles O42, by what a step can do: a fault, an effect of an engine that is Running, nothing, or a host command. -/
theorem everyStepKeepsTheInvariant : Obligations.EveryStepKeepsTheInvariant := by
  intro s t h hstep
  obtain ⟨he, ⟨c, hc, rfl⟩ | ⟨i, -, heff⟩⟩ | ⟨-, rfl | ⟨c, cs, -, ha, hd⟩⟩ := step_cases hstep
  · exact inv_raiseFault h hc
  · exact inv_of_effect h (by simp [((enabled_iff s).1 he).1]) heff
  · exact h
  · exact inv_of_hostDo (inv_setHost h cs) ha hd

/-- Settles O43: reset is the construction from the empty image. -/
theorem resetMeetsTheInvariant : Obligations.ResetMeetsTheInvariant := inv_constructed (m := []) rfl Params.reference

/-- Settles O50: neither a fault, an effect nor a host command sets the parameters. -/
theorem noStepChangesTheParameters : Obligations.NoStepChangesTheParameters := by
  intro s t hstep
  obtain ⟨-, ⟨c, -, rfl⟩ | ⟨i, -, heff⟩⟩ | ⟨-, rfl | ⟨c, cs, -, ha, hd⟩⟩ := step_cases hstep
  · rfl
  · exact (effect_params_host heff).1
  · rfl
  · exact hostDo_params (s := s.setHost cs) ha hd

end Sys2Proof.Machine
end

section
/-! How an enabled step ends, and where an engine stays (spec/60_exceptions.md R117 to R122), and obligations O35 and O37 to O41. -/

namespace Sys2Proof.Machine

/-- An enabled step takes a fault, goes on, halts at `halt` or a `ret` on an empty stack, or suspends at an `in` on an empty
queue. -/
theorem step_enabled_ends {s t : State} (he : enabled s = true) (h : step s = .next t) :
    (∃ c, c ≠ .none ∧ t = raiseFault c s) ∨
    t.status.state = .running ∨
    (t = enterHalted s ∧ (fetchDecode s = .ok .halt ∨ fetchDecode s = .ok .ret ∧ s.stack = [])) ∨
    (t = enterSuspended s ∧ s.inq = [] ∧ ∃ a, fetchDecode s = .ok (.inp a)) := by
  obtain ⟨-, fault | ⟨i, hi, heff⟩⟩ | ⟨idle, -⟩ := step_cases h
  · exact .inl fault
  · obtain kept | ⟨ht, rfl | ⟨rfl, hst⟩⟩ | ⟨ht, hq, a, rfl⟩ := effect_status heff
    · exact .inr (.inl (kept ▸ ((enabled_iff s).1 he).1))
    · exact .inr (.inr (.inl ⟨ht, .inl hi⟩))
    · exact .inr (.inr (.inl ⟨ht, .inr ⟨hi, hst⟩⟩))
    · exact .inr (.inr (.inr ⟨ht, hq, a, hi⟩))
  · cases he.symm.trans idle

/-- Settles O35: a decode fault, a fault of the instruction and its effect are next states all three. -/
theorem enabledStepAnswersNextState : Obligations.EnabledStepAnswersNextState := by
  intro s he
  obtain ⟨c, -, hstep⟩ | ⟨i, t, -, -, hstep, -⟩ := step_enabled_cases he
  · exact ⟨_, hstep⟩
  · exact ⟨t, hstep⟩

/-- Settles O37: the end of a faulting step is `raiseFault`, which sets the three fields that the run's result is read from. -/
theorem raisedFaultSetsStatusAndResult : Obligations.RaisedFaultSetsStatusAndResult :=
  fun c s => ⟨raiseFault c s, commit_error s c, rfl, rfl⟩

/-- Settles O38: of the ways a step can end, only a raised fault is in Faulted. -/
theorem faultingStepCommitsNothing : Obligations.FaultingStepCommitsNothing := by
  intro s t he hstep hfaulted
  obtain ⟨c, hc, rfl⟩ | running | ⟨rfl, -⟩ | ⟨rfl, -⟩ := step_enabled_ends he hstep
  · exact ⟨c, hc, rfl⟩
  · cases running.symm.trans hfaulted
  · cases hfaulted
  · cases hfaulted

/-- Settles O40: of the ways a step can end, only an `in` on an empty queue is in Suspended. -/
theorem suspendedOnlyByInOnEmptyQueue : Obligations.SuspendedOnlyByInOnEmptyQueue := by
  intro s t he hstep hsuspended
  obtain ⟨c, -, rfl⟩ | running | ⟨rfl, -⟩ | ⟨-, suspension⟩ := step_enabled_ends he hstep
  · cases hsuspended
  · cases running.symm.trans hsuspended
  · cases hsuspended
  · exact suspension

/-- Settles O41: of the ways a step can end, only `halt` and a `ret` on an empty stack are in Halted. -/
theorem haltedOnlyByHaltOrEmptyRet : Obligations.HaltedOnlyByHaltOrEmptyRet := by
  intro s t he hstep hhalted
  obtain ⟨c, -, rfl⟩ | running | ⟨-, halting⟩ | ⟨rfl, -⟩ := step_enabled_ends he hstep
  · cases hhalted
  · cases running.symm.trans hhalted
  · exact halting
  · cases hhalted

/-- Settles O39: no step is enabled, and of the host's commands ENQ touches the queue alone and RUN nothing. -/
theorem haltedAndFaultedAreNeverLeft : Obligations.HaltedAndFaultedAreNeverLeft := by
  intro s t hstopped ha hload hstep
  obtain ⟨he, -⟩ | ⟨-, rfl | ⟨c, cs, hhost, -, hd⟩⟩ := step_cases hstep
  · cases he.symm.trans (enabled_eq_false_of_not_active ha)
  · exact ⟨rfl, rfl, rfl, rfl, rfl, rfl⟩
  · obtain ⟨bytes, -, rfl, -⟩ | ⟨w, -, -, rfl⟩ | ⟨-, resumable, -⟩ | ⟨-, -, rfl⟩ := hostDo_cases (s := s.setHost cs) ha hd
    · exact absurd hhost (hload bytes cs)
    · exact ⟨rfl, rfl, rfl, rfl, rfl, rfl⟩
    · rw [State.setHost_status] at resumable
      rcases hstopped with h | h <;> simp [h] at resumable
    · exact ⟨rfl, rfl, rfl, rfl, rfl, rfl⟩

end Sys2Proof.Machine
end

section
/-! What one instruction can change (spec/10_state.md R20, R32, R35 to R37, spec/20_memory.md R45, R46), said once for all
instructions, and obligations O44 to O48. -/

namespace Sys2Proof.Machine

/-- What instruction `i` may have changed between `s` and `t`, field by field. -/
structure Frame (i : Instr) (s t : State) : Prop where
  stack : t.stack = s.stack ∨ (∃ a, i = .push a) ∨ (∃ a, i = .pop a) ∨ (∃ a, i = .call a) ∨ i = .ret
  regs : ∀ r, readReg r t = readReg r s ∨ targetOf i = some (.reg r)
  mem : ∀ a, t.mem.read a = s.mem.read a ∨ storeAddress i s = some a ∧ a < 32768
  outs : t.outs = s.outs ∨ ∃ a, i = .out a ∧ t.outs = s.outs ++ [(resolveValue a s).setWidth 8]
  inq : t.inq = s.inq ∨ ∃ a v, i = .inp a ∧ s.inq = v :: t.inq

/-- STATUS and pc are in no instruction's frame. -/
theorem frame_setStatus (i : Instr) (s : State) (x : Status) : Frame i s (s.setStatus x) :=
  ⟨.inl rfl, fun _ => .inl rfl, fun _ => .inl rfl, .inl rfl, .inl rfl⟩

theorem frame_setPc (i : Instr) (s : State) (p : Word) : Frame i s (s.setPc p) :=
  ⟨.inl rfl, fun _ => .inl rfl, fun _ => .inl rfl, .inl rfl, .inl rfl⟩

/-- R46: an instruction with a target operand stores where its target is an address. -/
theorem storeAddress_of_targetOf {i : Instr} {d : Dst} (s : State) (h : targetOf i = some d) :
    storeAddress i s = targetAddress d := by
  cases i
  case wmem => cases h
  all_goals exact congrArg (Option.bind · targetAddress) h

section
variable {i : Instr} {d : Dst} {v : Word} {s t : State} (hi : targetOf i = some d) (ht : TargetWritten d v s t)
include hi ht

theorem regs_of_targetWritten (r : Fin 8) : readReg r t = readReg r s ∨ targetOf i = some (.reg r) := by
  by_cases hr : d = .reg r
  · exact .inr (hr ▸ hi)
  · exact .inl (by rw [ht.1 r, if_neg hr])

theorem mem_of_targetWritten (hd : Storable d) (a : Nat) :
    t.mem.read a = s.mem.read a ∨ storeAddress i s = some a ∧ a < 32768 := by
  by_cases ha : targetAddress d = some a
  · exact .inr ⟨(storeAddress_of_targetOf s hi).trans ha, hd a ha⟩
  · exact .inl (by rw [ht.2 a, if_neg ha])

end

/-- An assignment to the instruction's target operand changes the target alone. -/
theorem frame_assigned {i : Instr} {d : Dst} {s : State} (hi : targetOf i = some d) (hd : Storable d) (v : Word) (n : Nat) :
    Frame i s (advance n (putTarget d v s)) where
  stack := .inl (by simp [advance])
  regs := regs_of_targetWritten hi (targetWritten_putTarget d v s)
  mem := mem_of_targetWritten hi (targetWritten_putTarget d v s) hd
  outs := .inl (by simp [advance])
  inq := .inl (by simp [advance])

/-- Every effect stays within the instruction's frame. -/
theorem frame_of_effect {i : Instr} {s t : State} (h : Effect i s t) : Frame i s t := by
  cases i
  case halt => obtain rfl := h; exact frame_setStatus _ s _
  case jmp a | noop => obtain rfl := h; exact frame_setPc _ s _
  case jt a b | jf a b =>
    obtain rfl := h
    split
    all_goals exact frame_setPc _ s _
  case push a =>
    obtain ⟨-, rfl⟩ := h
    exact ⟨.inr (.inl ⟨a, rfl⟩), fun _ => .inl rfl, fun _ => .inl rfl, .inl rfl, .inl rfl⟩
  case call a =>
    obtain ⟨-, rfl⟩ := h
    exact ⟨.inr (.inr (.inr (.inl ⟨a, rfl⟩))), fun _ => .inl rfl, fun _ => .inl rfl, .inl rfl, .inl rfl⟩
  case ret =>
    obtain ⟨-, rfl⟩ | ⟨v, st, -, rfl⟩ := h
    · exact frame_setStatus _ s _
    · exact ⟨.inr (.inr (.inr (.inr rfl))), fun _ => .inl rfl, fun _ => .inl rfl, .inl rfl, .inl rfl⟩
  case out a =>
    obtain rfl := h
    exact ⟨.inl rfl, fun _ => .inl rfl, fun _ => .inl rfl, .inr ⟨a, rfl, rfl⟩, .inl rfl⟩
  case wmem a b =>
    obtain ⟨ha, rfl⟩ := h
    refine ⟨.inl rfl, fun _ => .inl rfl, fun x => ?mem, .inl rfl, .inl rfl⟩
    by_cases hx : x = (resolveValue a s).toNat
    · exact .inr ⟨congrArg some hx.symm, hx ▸ ha⟩
    · exact .inl (Memory.read_write_of_ne s.mem _ hx)
  case pop a =>
    obtain ⟨hd, v, st, -, rfl⟩ := h
    exact { frame_assigned (s := s.setStack st) rfl hd v 2 with stack := .inr (.inr (.inl ⟨a, rfl⟩)) }
  case inp a =>
    obtain ⟨-, rfl⟩ | ⟨hd, v, q, hq, rfl⟩ := h
    · exact frame_setStatus _ s _
    · exact { frame_assigned (s := s.setInq q) rfl hd v 2 with inq := .inr ⟨a, v, rfl, by simp [advance, hq]⟩ }
  case mod => obtain ⟨hd, v, -, rfl⟩ := h; exact frame_assigned rfl hd v 4
  case rmem => obtain ⟨hd, -, rfl⟩ := h; exact frame_assigned rfl hd _ 3
  case set | eq | gt | add | mult | and | or | not => obtain ⟨hd, rfl⟩ := h; exact frame_assigned rfl hd _ _

theorem frame_of_exec {i : Instr} {s t : State} (h : exec i s = .next t) : Frame i s t := by
  obtain ⟨c, -, rfl⟩ | heff := exec_next_cases h
  · exact frame_setStatus i s _
  · exact frame_of_effect heff

/-- Settles O44: the stack's part of the frame. -/
theorem onlyStackInstructionsTouchTheStack : Obligations.OnlyStackInstructionsTouchTheStack :=
  fun _ _ _ h hne => (frame_of_exec h).stack.resolve_left hne

/-- Settles O45: the registers' part of the frame. -/
theorem registersChangeOnlyAsTargets : Obligations.RegistersChangeOnlyAsTargets :=
  fun _ _ _ r h hne => ((frame_of_exec h).regs r).resolve_left hne

/-- Settles O46: the memory's part of the frame. -/
theorem memoryChangesOnlyAtTheStoreAddress : Obligations.MemoryChangesOnlyAtTheStoreAddress :=
  fun _ _ _ a h hne => ((frame_of_exec h).mem a).resolve_left hne

/-- Settles O47: the output stream's part of the frame. -/
theorem outputGrowsOnlyByOut : Obligations.OutputGrowsOnlyByOut := fun _ _ _ h => (frame_of_exec h).outs

/-- Settles O48: the input queue's part of the frame. -/
theorem queueIsDrainedOnlyByIn : Obligations.QueueIsDrainedOnlyByIn := fun _ _ _ h => (frame_of_exec h).inq

end Sys2Proof.Machine
end

section
/-! Words of 15 bits (spec/44_alu.md R107, R108), and obligation O17. -/

namespace Sys2Proof.Machine

theorem toNat_ofNat_mod_lt (n : Nat) : (BitVec.ofNat 16 (n % 32768)).toNat < 32768 := by
  rw [BitVec.toNat_ofNat]; omega

/-- R106: the mask of `not` leaves 15 bits. -/
theorem aluNot_lt (b : Word) : (aluNot b).toNat < 32768 := by
  rw [aluNot, toNat_and_mask15]
  exact Nat.mod_lt _ (by decide)

/-- R103: a remainder is less than its divisor. -/
theorem aluMod_lt {b c r : Word} (h : aluMod b c = .ok r) : r.toNat < c.toNat := by
  by_cases hc : c = 0#16
  · cases (aluMod_of_eq_zero b hc).symm.trans h
  · obtain rfl := Except.ok.inj ((aluMod_of_ne_zero b hc).symm.trans h)
    have hpos : 0 < c.toNat := Nat.pos_of_ne_zero fun h0 => hc (BitVec.eq_of_toNat_eq h0)
    rw [BitVec.toNat_ofNat]
    exact Nat.lt_of_le_of_lt (Nat.mod_le _ _) (Nat.mod_lt _ hpos)

/-- R108: neither value of AND_OR_WIDE adds a bit. -/
theorem maskWide_lt (m : AndOrWide) {v : Word} (h : v.toNat < 32768) : (maskWide m v).toNat < 32768 := by
  cases m with
  | raw16 => exact h
  | mask15 =>
    rw [maskWide, toNat_and_mask15]
    exact Nat.mod_lt _ (by decide)

/-- Settles O17: sums and products are reduced modulo 32768, `not` is masked, a remainder is below its divisor, and bitwise
operations give no bit that their operands lack. -/
theorem aluResultsStayInFifteenBits : Obligations.AluResultsStayInFifteenBits := by
  refine fun b c => ⟨toNat_ofNat_mod_lt _, toNat_ofNat_mod_lt _, aluNot_lt b, fun r => aluMod_lt,
    fun hb hc m => ⟨?and, ?or⟩⟩
  case and =>
    apply maskWide_lt
    rw [BitVec.toNat_and]
    exact Nat.lt_of_le_of_lt Nat.and_le_left hb
  case or =>
    apply maskWide_lt
    rw [BitVec.toNat_or]
    exact Nat.or_lt_two_pow (n := 15) hb hc

end Sys2Proof.Machine
end

section
/-! What a write leaves to be read (spec/10_state.md R20) and fetched (spec/20_memory.md R57), and obligations O21 and O22. -/

namespace Sys2Proof.Machine

/-- Settles O21: WriteTarget answers `putTarget`, whose register or word reads as the value written. -/
theorem writtenTargetReadsBack : Obligations.WrittenTargetReadsBack := by
  intro d v s t h
  obtain ⟨hd, e⟩ | ⟨-, e⟩ := writeTarget_cases d v s
  · obtain rfl : putTarget d v s = t := Except.ok.inj (e.symm.trans h)
    refine ⟨fun r hr => ?register, fun a ha => ?memory⟩
    case register => rw [hr, putTarget, resolveValue, readReg_writeReg, if_pos rfl]
    case memory =>
      subst ha
      exact memRead_setMem_write v s (hd _ rfl)
  · cases e.symm.trans h

/-- On a stack that is not empty, `pop` is an assignment in the popped state, for every target (R95). -/
theorem exec_pop_of_popped {s : State} (a : Dst) {v : Word} {st : List Word} (h : s.stack = v :: st) :
    exec (.pop a) s = commit s (assign a v 2 (s.setStack st)) := by
  simp only [exec, execPop, pop?_of_stack_cons h]

/-- On a queue that is not empty, `in` is an assignment in the dequeued state, for every target (R114). -/
theorem exec_inp_of_dequeued {s : State} (a : Dst) {v : Word} {q : List Word} (h : s.inq = v :: q) :
    exec (.inp a) s = commit s (assign a v 2 (s.setInq q)) := by
  simp only [exec, execInp, dequeue?_of_inq_cons h]

/-- `i` stores `v` at address `x`, and leaves STATUS as it was. -/
def Stores (i : Instr) (x : Nat) (v : Word) (s : State) : Prop :=
  ∃ t, exec i s = .next t ∧ t.mem = s.mem.write x v ∧ t.status = s.status

/-- `i` stops without a store. -/
def Stops (i : Instr) (s : State) : Prop :=
  ∃ t, exec i s = .next t ∧ (t.status.state = .faulted ∨ t.status.state = .suspended)

theorem stops_of_fault {i : Instr} {s : State} {c : Cause} (h : exec i s = .next (raiseFault c s)) : Stops i s :=
  ⟨_, h, .inl rfl⟩

section
variable {i : Instr} {s : State} {x : Nat} (ha : storeAddress i s = some x) (hx : x < 32768)
include ha hx

/-- An assignment stores where its destination is the store address; `u` is the old state, or the old state after a pop or a
dequeue. -/
theorem stores_of_assign {d : Dst} {v : Word} {n : Nat} {u : State} (hi : targetOf i = some d)
    (h : exec i s = commit s (assign d v n u)) (hm : u.mem = s.mem) (hs : u.status = s.status) : Stores i x v s := by
  have hd : targetAddress d = some x := (storeAddress_of_targetOf s hi).symm.trans ha
  obtain ⟨a⟩ | ⟨r⟩ := d
  · obtain rfl : a.toNat = x := Option.some.inj hd
    rw [assign_wf (d := .mem a) (decide_eq_true hx)] at h
    exact ⟨_, h, congrArg (·.write a.toNat v) hm, hs⟩
  · cases hd

/-- The instruction's own condition gives it a word to store, or stops it. -/
theorem stores_or_stops : (∃ v, storedWord i s = some v ∧ Stores i x v s) ∨ (storedWord i s = none ∧ Stops i s) := by
  cases i
  case halt | push | jmp | jt | jf | call | ret | out | noop => cases ha
  case set | eq | gt | add | mult | and | or | not => exact .inl ⟨_, rfl, stores_of_assign ha hx rfl rfl rfl rfl⟩
  case wmem a b =>
    obtain rfl : (resolveValue a s).toNat = x := Option.some.inj ha
    exact .inl ⟨_, rfl, _, exec_wmem_of_lt b hx, rfl, rfl⟩
  case mod a b c =>
    by_cases hc : resolveValue c s = 0#16
    · exact .inr ⟨congrArg Except.toOption (aluMod_of_eq_zero _ hc), stops_of_fault (exec_mod_of_eq_zero a b hc)⟩
    · exact .inl ⟨_, congrArg Except.toOption (aluMod_of_ne_zero _ hc),
        stores_of_assign ha hx rfl (exec_mod_of_ne_zero a b hc) rfl rfl⟩
  case rmem a b =>
    obtain ⟨hb, e⟩ | ⟨hb, e⟩ := memRead_cases (resolveValue b s) s
    · exact .inl ⟨_, congrArg Except.toOption e, stores_of_assign ha hx rfl (exec_rmem_of_lt a hb) rfl rfl⟩
    · exact .inr ⟨congrArg Except.toOption e, stops_of_fault (exec_rmem_of_ge a hb)⟩
  case pop a =>
    cases hst : s.stack with
    | nil => exact .inr ⟨congrArg List.head? hst, stops_of_fault (exec_pop_of_stack_nil a hst)⟩
    | cons w st =>
      exact .inl ⟨w, congrArg List.head? hst, stores_of_assign ha hx rfl (exec_pop_of_popped a hst) rfl rfl⟩
  case inp a =>
    cases hq : s.inq with
    | nil => exact .inr ⟨congrArg List.head? hq, _, exec_inp_of_inq_nil a hq, .inr rfl⟩
    | cons w q =>
      exact .inl ⟨w, congrArg List.head? hq, stores_of_assign ha hx rfl (exec_inp_of_dequeued a hq) rfl rfl⟩

end

/-- R57: a fetch sees a store at its address, and the old words at every other. -/
theorem getElem?_fetchFrom_write (m : Memory) (x : Nat) (v : Word) {p n k : Nat} (hk : k < n) (hp : p + k < 32768) :
    (fetchFrom (m.write x v) p n)[k]? = some (if p + k = x then v else m.read (p + k)) := by
  rw [getElem?_fetchFrom, if_pos ⟨hk, hp⟩, Memory.read_write]

/-- Settles O22: whether the instruction's own condition gives it a word decides between the store and the stop. -/
theorem storeIsSeenByEveryLaterFetch : Obligations.StoreIsSeenByEveryLaterFetch := by
  intro i x s ha hx
  obtain ⟨w, hw, t, hexec, hm, hs⟩ | ⟨hw, t, hexec, hstop⟩ := stores_or_stops ha hx
  · refine ⟨t, hexec, fun v hv => ⟨hs, fun p n k hk hp => ?_⟩, fun hv => nomatch hw.symm.trans hv⟩
    obtain rfl := Option.some.inj (hw.symm.trans hv)
    rw [hm, getElem?_fetchFrom_write _ _ _ hk hp]
  · exact ⟨t, hexec, fun v hv => (nomatch hw.symm.trans hv), fun _ => hstop⟩

end Sys2Proof.Machine
end

section
/-! What instructions do not observe (spec/10_state.md R34, R38), and obligation O49. -/

namespace Sys2Proof.Machine

/-- The state with another STATUS, further bytes before its output and another host script. -/
def disguise (x : Status) (o : List Byte) (h : List HostCmd) (s : State) : State :=
  { s with status := x, outs := o ++ s.outs, host := h }

section
variable (x : Status) (o : List Byte) (h : List HostCmd) (s : State)

@[simp] theorem resolveValue_disguise (a : Src) : resolveValue a (disguise x o h s) = resolveValue a s := by cases a <;> rfl

@[simp] theorem memRead_disguise (a : Word) : memRead a (disguise x o h s) = memRead a s := rfl

@[simp] theorem disguise_params : (disguise x o h s).params = s.params := rfl

/-- What commutes with the disguise goes on doing so after an operation that can fault. -/
theorem map_disguise (f : State → State) (hf : ∀ t, f (disguise x o h t) = disguise x o h (f t)) (r : Except Cause State) :
    (r.map (disguise x o h)).map f = (r.map f).map (disguise x o h) := by
  cases r with
  | error c => rfl
  | ok t => exact congrArg Except.ok (hf t)

theorem memWrite_disguise (a v : Word) :
    memWrite a v (disguise x o h s) = (memWrite a v s).map (disguise x o h) := by
  obtain ⟨ha, e⟩ | ⟨ha, e⟩ := memWrite_cases a v s
  · rw [e, memWrite_of_lt _ _ ha]; rfl
  · rw [e, memWrite_of_ge _ _ ha]; rfl

theorem push_disguise (v : Word) : push v (disguise x o h s) = (push v s).map (disguise x o h) := by
  obtain ⟨hs, e⟩ | ⟨hs, e⟩ := push_cases v s
  · rw [e]; exact push_of_room (s := disguise x o h s) v hs
  · rw [e]; exact push_of_full (s := disguise x o h s) v hs

theorem assign_disguise (d : Dst) (v : Word) (n : Nat) :
    assign d v n (disguise x o h s) = (assign d v n s).map (disguise x o h) := by
  have written : writeTarget d v (disguise x o h s) = (writeTarget d v s).map (disguise x o h) := by
    cases d with
    | mem a => exact memWrite_disguise x o h s a v
    | reg r => rfl
  rw [assign, written]
  exact map_disguise x o h (advance n) (fun _ => rfl) _

theorem bind_assign_disguise (e : Except Cause Word) (d : Dst) (n : Nat) :
    (e.bind fun v => assign d v n (disguise x o h s)) = (e.bind fun v => assign d v n s).map (disguise x o h) := by
  cases e with
  | error c => rfl
  | ok v => exact assign_disguise x o h s d v n

/-- With the disguise, `i` answers the same state but for STATUS and the disguise. -/
def Unobserved (i : Instr) : Prop := ∀ t, exec i s = .next t → ∃ x', exec i (disguise x o h s) = .next (disguise x' o h t)

variable {x o h s}

theorem unobserved_of_next {i : Instr} {u : State} {x' : Status} (hs : exec i s = .next u)
    (hd : exec i (disguise x o h s) = .next (disguise x' o h u)) : Unobserved x o h s i := by
  intro t ht
  obtain rfl := Host.Outcome.next.inj (hs.symm.trans ht)
  exact ⟨x', hd⟩

/-- A fault takes the STATUS of its cause in both, and otherwise both commit their writes. -/
theorem unobserved_of_commit {i : Instr} {r : Except Cause State} (hs : exec i s = commit s r)
    (hd : exec i (disguise x o h s) = commit (disguise x o h s) (r.map (disguise x o h))) : Unobserved x o h s i := by
  cases r with
  | ok u => exact unobserved_of_next hs hd
  | error c => exact unobserved_of_next (x' := (raiseFault c s).status) hs hd

/-- An assignment of a result that the disguise leaves as it is. -/
theorem unobserved_of_bind {i : Instr} {d : Dst} {n : Nat} {v : State → Except Cause Word}
    (hi : ∀ u, exec i u = commit u ((v u).bind fun w => assign d w n u)) (hv : v (disguise x o h s) = v s) :
    Unobserved x o h s i := by
  refine unobserved_of_commit (hi s) ?_
  rw [hi, hv, bind_assign_disguise]

theorem unobserved_of_assign {i : Instr} {d : Dst} {n : Nat} {v : State → Word}
    (hi : ∀ u, exec i u = commit u (assign d (v u) n u)) (hv : v (disguise x o h s) = v s) : Unobserved x o h s i :=
  unobserved_of_bind (v := fun u => .ok (v u)) hi (congrArg Except.ok hv)

/-- No instruction observes STATUS, the output or the host: what it reads and writes is outside the disguise. -/
theorem unobserved (i : Instr) : Unobserved x o h s i := by
  cases i
  case halt => exact unobserved_of_next (x' := (enterHalted (disguise x o h s)).status) rfl rfl
  case noop => exact unobserved_of_next (x' := x) rfl rfl
  case jmp a => exact unobserved_of_next (x' := x) (exec_jmp a s) (by rw [exec_jmp, resolveValue_disguise]; rfl)
  case jt a b =>
    refine unobserved_of_next (x' := x) (exec_jt a b s) ?_
    rw [exec_jt, resolveValue_disguise, resolveValue_disguise]
    rfl
  case jf a b =>
    refine unobserved_of_next (x' := x) (exec_jf a b s) ?_
    rw [exec_jf, resolveValue_disguise, resolveValue_disguise]
    rfl
  case out a =>
    refine unobserved_of_next (x' := x) (exec_out a s) ?_
    rw [exec_out, resolveValue_disguise]
    simp [emit, advance, disguise, State.setOuts, State.setPc]
  case ret =>
    obtain ⟨hs, -⟩ | ⟨v, st, hs, -⟩ := pop?_cases s
    · exact unobserved_of_next (x' := (enterHalted (disguise x o h s)).status) (exec_ret_of_stack_nil hs)
        (exec_ret_of_stack_nil hs)
    · exact unobserved_of_next (x' := x) (exec_ret_of_stack_cons hs) (exec_ret_of_stack_cons hs)
  case set | not | eq | gt | add | mult | and | or => exact unobserved_of_assign (fun _ => rfl) (by simp)
  case mod | rmem => exact unobserved_of_bind (fun _ => rfl) (by simp)
  case wmem a b =>
    refine unobserved_of_commit (exec_wmem a b s) ?_
    rw [exec_wmem, resolveValue_disguise, resolveValue_disguise, memWrite_disguise, map_disguise x o h (advance 3) fun _ => rfl]
  case push a =>
    refine unobserved_of_commit (exec_push a s) ?_
    rw [exec_push, resolveValue_disguise, push_disguise, map_disguise x o h (advance 2) fun _ => rfl]
  case call a =>
    refine unobserved_of_commit (exec_call a s) ?_
    rw [exec_call, resolveValue_disguise, push_disguise, map_disguise x o h (·.setPc (resolveValue a s)) fun _ => rfl]
    rfl
  case pop a =>
    obtain ⟨hs, -⟩ | ⟨v, st, hs, -⟩ := pop?_cases s
    · exact unobserved_of_commit (r := .error .stackUnderflow) (exec_pop_of_stack_nil a hs) (exec_pop_of_stack_nil a hs)
    · refine unobserved_of_commit (exec_pop_of_popped a hs) ?_
      rw [exec_pop_of_popped a (s := disguise x o h s) hs, ← assign_disguise]
      rfl
  case inp a =>
    obtain ⟨hs, -⟩ | ⟨v, q, hs, -⟩ := dequeue?_cases s
    · exact unobserved_of_next (x' := (enterSuspended (disguise x o h s)).status) (exec_inp_of_inq_nil a hs)
        (exec_inp_of_inq_nil a hs)
    · refine unobserved_of_commit (exec_inp_of_dequeued a hs) ?_
      rw [exec_inp_of_dequeued a (s := disguise x o h s) hs, ← assign_disguise]
      rfl

end

/-- Settles O49: every operation that an instruction is made of commutes with the disguise. -/
theorem noInstructionObservesStatusOrOutput : Obligations.NoInstructionObservesStatusOrOutput :=
  fun i _ t _ _ _ => unobserved i t

end Sys2Proof.Machine
end

section
/-! The STATUS word (spec/10_state.md R27, spec/60_exceptions.md R116), and obligation O36. -/

namespace Sys2Proof.Machine

theorem EngineState.code_lt (e : EngineState) : e.code < 4 := by cases e <;> decide

theorem Cause.code_lt (c : Cause) : c.code < 8 := by cases c <;> decide

/-- The low part of a concatenation is below its width, so that its bits and those of the high part add. -/
theorem toNat_append_eq_add {m n : Nat} (x : BitVec m) (y : BitVec n) : (x ++ y).toNat = x.toNat * 2 ^ n + y.toNat := by
  rw [BitVec.toNat_append, ← Nat.shiftLeft_add_eq_or_of_lt y.isLt, Nat.shiftLeft_eq]

theorem toNat_statusWord (x : Status) :
    (statusWord x).toNat = x.state.code + 4 * (if x.active then 1 else 0) + 8 * x.cause.code := by
  have active : (BitVec.ofBool x.active).toNat = if x.active then 1 else 0 := by cases x.active <;> rfl
  have state : (BitVec.ofNat 2 x.state.code).toNat = x.state.code := Nat.mod_eq_of_lt x.state.code_lt
  have cause : (BitVec.ofNat 3 x.cause.code).toNat = x.cause.code := Nat.mod_eq_of_lt x.cause.code_lt
  simp only [statusWord, toNat_append_eq_add, active, state, cause, BitVec.toNat_ofNat]
  omega

/-- Settles O36: each code fits its field, so that the word is the sum of the fields at their places. -/
theorem statusWordHasItsLayout : Obligations.StatusWordHasItsLayout := fun x => ⟨toNat_statusWord x, rfl, rfl⟩

end Sys2Proof.Machine
end

section
/-! Runs that never end (spec/70_reset_and_hazards.md R152), and obligation O51. -/

namespace Sys2Proof.Machine

/-- The step of an enabled engine whose two words at pc are an opcode word and the address they stand at. -/
theorem step_of_self_operand {s : State} {i : Instr} {op : Word} (he : enabled s = true) (hpc : s.pc.toNat + 1 < 32768)
    (hop : s.mem.read s.pc.toNat = op) (hself : s.mem.read (s.pc.toNat + 1) = s.pc) (hi : i.wellFormed = true)
    (henc : encode i = [op, s.pc]) : step s = exec i s := by
  refine wordsAtPcAreExecuted s i he hi fun k w hw => ?_
  rw [henc] at hw
  match k, hw with
  | 0, hw => exact ⟨by omega, hop.trans (Option.some.inj hw)⟩
  | 1, hw => exact ⟨hpc, hself.trans (Option.some.inj hw)⟩

/-- A state whose step answers itself answers itself for any number of steps. -/
theorem runsTo_self {s : State} (h : step s = .next s) (k : Nat) : RunsTo k s s := by
  induction k with
  | zero => exact runsTo_zero s
  | succ k ih => exact runsTo_succ h ih

/-- Every step of the self-call pushes one more return address; the rest of the state, on which the step depends, stays. -/
theorem runsTo_self_call {s : State} (he : enabled s = true) (hpc : s.pc.toNat + 1 < 32768)
    (hop : s.mem.read s.pc.toNat = 17#16) (hself : s.mem.read (s.pc.toNat + 1) = s.pc)
    (hcap : s.params.stackCapacity = none) (k : Nat) :
    ∀ st, RunsTo k (s.setStack st) (s.setStack (List.replicate k (s.pc + 2#16) ++ st)) := by
  induction k with
  | zero => exact fun st => runsTo_zero _
  | succ k ih =>
    intro st
    have hstep : step (s.setStack st) = .next (s.setStack ((s.pc + 2#16) :: st)) := by
      have room : s.params.stackCapacity ≠ some st.length := by simp [hcap]
      rw [step_of_self_operand (s := s.setStack st) (i := .call (.lit s.pc)) he hpc hop hself
        (decide_eq_true (by omega)) rfl]
      exact exec_call_of_room (s := s.setStack st) (.lit s.pc) room
    rw [List.replicate_succ', List.append_assoc]
    exact runsTo_succ hstep (ih _)

/-- Settles O51: the jump's step answers the same state, and the call's the same state with one more return address. -/
theorem selfLoopsRunForEver : Obligations.SelfLoopsRunForEver := by
  intro s he hpc hself
  refine ⟨fun hop k => ?jump, fun hop hcap k => runsTo_self_call he hpc hop hself hcap k s.stack⟩
  case jump =>
    have hstep : step s = exec (.jmp (.lit s.pc)) s :=
      step_of_self_operand he hpc hop hself (decide_eq_true (by omega)) rfl
    exact runsTo_self (hstep.trans (exec_jmp _ s)) k

end Sys2Proof.Machine
end

section
/-! The host's commands (spec/60_exceptions.md R131 to R133, R139) and a suspended engine's way on (spec/47_io.md R114), and
obligations O53 and O55 to O59. -/

namespace Sys2Proof.Machine

/-- R136: during a run no host command has a move. -/
theorem hostDo_of_active (c : HostCmd) {s : State} (ha : s.status.active = true) : hostDo c s = .refused .hostDuringRun := by
  simp only [hostDo, ha, if_true]

theorem step_run {s : State} {cs : List HostCmd} (ha : s.status.active = false) (hh : s.host = .run :: cs) :
    step s = hostRun (s.setHost cs) := by
  rw [step_host_command ha hh, hostDo, State.setHost_status, ha]; rfl

theorem step_enq {s : State} {w : Word} {cs : List HostCmd} (ha : s.status.active = false) (hh : s.host = .enq w :: cs) :
    step s = hostEnq w (s.setHost cs) := by
  rw [step_host_command ha hh, hostDo, State.setHost_status, ha]; rfl

theorem inputQueueFull_iff (s : State) : inputQueueFull s = true ↔ s.params.inputQueueCapacity = some s.inq.length := by
  simp [inputQueueFull]

theorem hostEnq_of_room {s : State} (w : Word) (h : s.params.inputQueueCapacity ≠ some s.inq.length) :
    hostEnq w s = .next (enqueue w s) := if_neg (mt (inputQueueFull_iff s).1 h)

theorem hostEnq_of_full {s : State} (w : Word) (h : s.params.inputQueueCapacity = some s.inq.length) :
    hostEnq w s = .refused .inputQueueFull := if_pos ((inputQueueFull_iff s).2 h)

/-- R133, the row of Running. -/
theorem hostRun_of_running {s : State} (h : s.status.state = .running) : hostRun s = .next (beginRun s) := by
  simp [hostRun, h]

/-- R133, the row of Faulted. -/
theorem hostRun_of_faulted {s : State} (h : s.status.state = .faulted) : hostRun s = .next s := by
  simp [hostRun, h]

/-- R137: no run is active and STATE is Faulted. -/
theorem runResult_of_faulted {x : Status} (hs : x.state = .faulted) (ha : x.active = false) :
    runResult x = some (.fault x.cause) := by
  simp [runResult, hs, ha]

/-- R60, R61: what the loader builds from an image that it does not refuse. -/
theorem loadImage_of_even (p : Params) {bytes : List Byte} (he : bytes.length % 2 = 0) (hl : bytes.length / 2 ≤ 32768) :
    loadImage p bytes = .ok { State.reset with mem := imageFrom 0 (pairBytes bytes), params := p } := by
  rw [loadImage, if_neg (by omega), construct, if_pos (by rwa [length_pairBytes])]

/-- R59: word `a` of an image, low byte first, and 0 beyond it. -/
theorem toNat_read_imageFrom_pairBytes {bytes : List Byte} (he : bytes.length % 2 = 0) (a : Nat) :
    ((imageFrom 0 (pairBytes bytes)).read a).toNat =
      (bytes[2 * a]?.getD 0).toNat + 256 * (bytes[2 * a + 1]?.getD 0).toNat := by
  rw [read_imageFrom, if_pos (Nat.zero_le a), Nat.sub_zero, toNat_pairBytes bytes a he]

/-- Settles O53: LOAD answers the constructed state, which differs from reset in memory, the parameters and the host's list. -/
theorem loadBuildsEngineFromImage : Obligations.LoadBuildsEngineFromImage := by
  intro s bytes cs ha hh he hl
  have hstep : step s = .next (State.setHost
      { State.reset with mem := imageFrom 0 (pairBytes bytes), params := s.params } cs) := by
    rw [step_load ha hh, hostLoad, loadImage_of_even _ he hl]
    rfl
  exact ⟨_, hstep, toNat_read_imageFrom_pairBytes he, readReg_reset, rfl, rfl, rfl, rfl, rfl, rfl, rfl⟩

/-- Settles O55, by the rows of R133. -/
theorem runActsByEngineState : Obligations.RunActsByEngineState := by
  refine ⟨fun s ha => hostDo_of_active .run ha, fun s cs ha hh => ?_⟩
  rw [step_run ha hh]
  refine ⟨fun hs => ?resumed, fun hs => ?halted, fun hs => ?faulted⟩
  case resumed =>
    rcases hs with hs | hs
    · exact hostRun_of_running hs
    · exact hostRun_of_suspended hs
  case halted => exact ⟨hostRun_of_halted hs, runResult_of_halted hs ha⟩
  case faulted => exact ⟨hostRun_of_faulted hs, runResult_of_faulted hs ha⟩

/-- Settles O56: whether the queue's length equals its capacity decides between the appended word and the refusal. -/
theorem enqAppendsToInputQueue : Obligations.EnqAppendsToInputQueue := by
  refine ⟨fun s w ha => hostDo_of_active (.enq w) ha, fun s w cs ha hh => ?_⟩
  rw [step_enq ha hh]
  exact ⟨hostEnq_of_room (s := s.setHost cs) w, hostEnq_of_full (s := s.setHost cs) w⟩

/-- Settles O57: the turn is the host's, and it has no command. -/
theorem idleEngineStaysAsItIs : Obligations.IdleEngineStaysAsItIs := by
  intro s he hh
  simp only [step, he, Bool.false_eq_true, if_false, hostTurn, hh]

/-! ### A suspended engine -/

theorem enabled_beginRun (s : State) : enabled (beginRun s) = true := rfl

theorem step_of_fetchDecode {s : State} {i : Instr} (he : enabled s = true) (h : fetchDecode s = .ok i) :
    step s = exec i s := by
  simp only [step, he, if_true, h]

/-- Suspending a run that RUN began in Suspended restores STATUS. -/
theorem enterSuspended_beginRun {s : State} (hs : s.status.state = .suspended) (ha : s.status.active = false) :
    enterSuspended (beginRun s) = s := by
  obtain ⟨mem, regs, pc, stack, ⟨state, active, cause⟩, inq, outs, params, host⟩ := s
  obtain rfl : state = .suspended := hs
  obtain rfl : active = false := ha
  rfl

/-- The engine that ENQ of one word and RUN make of one suspended on an empty queue. -/
def resumedWith (w : Word) (cs : List HostCmd) (s : State) : State := beginRun ((s.setInq [w]).setHost cs)

/-- Settles O58: RUN begins the run again, and the retried `in` suspends it. -/
theorem retryOnEmptyQueueSuspendsAgain : Obligations.RetryOnEmptyQueueSuspendsAgain := by
  intro s a cs hs ha hq hi hh
  have run : step s = .next (beginRun (s.setHost cs)) := (step_run ha hh).trans (hostRun_of_suspended hs)
  have fetched : fetchDecode (beginRun (s.setHost cs)) = .ok (.inp a) := hi
  have retry : step (beginRun (s.setHost cs)) = .next (s.setHost cs) := by
    rw [step_of_fetchDecode (enabled_beginRun _) fetched, exec_inp_of_inq_nil (s := beginRun (s.setHost cs)) a hq,
      enterSuspended_beginRun (s := s.setHost cs) hs ha]
  exact runsTo_succ run (runsTo_succ retry (runsTo_zero _))

/-- Settles O59: ENQ appends the word to the empty queue, RUN begins the run again, and the retried `in` takes the word. -/
theorem resumeConsumesOneWord : Obligations.ResumeConsumesOneWord := by
  intro s a w cs hs ha hq hcap hi hh
  have enq : step s = .next ((s.setInq [w]).setHost (.run :: cs)) := by
    have room : s.params.inputQueueCapacity ≠ some s.inq.length := by rw [hq]; exact hcap
    rw [step_enq ha hh, hostEnq_of_room (s := s.setHost (.run :: cs)) w room, enqueue, State.setHost_inq, hq]
    rfl
  have run : step ((s.setInq [w]).setHost (.run :: cs)) = .next (resumedWith w cs s) :=
    (step_run (s := (s.setInq [w]).setHost (.run :: cs)) ha rfl).trans
      (hostRun_of_suspended (s := (s.setInq [w]).setHost cs) hs)
  have fetched : fetchDecode (resumedWith w cs s) = .ok (.inp a) := hi
  have consume : step (resumedWith w cs s) = .next (advance 2 (putTarget a w ((resumedWith w cs s).setInq []))) :=
    (step_of_fetchDecode (enabled_beginRun _) fetched).trans (exec_inp_of_inq_cons (wellFormed_of_fetchDecode hi) rfl)
  have written : TargetWritten a w s (advance 2 (putTarget a w ((resumedWith w cs s).setInq []))) :=
    targetWritten_putTarget a w ((resumedWith w cs s).setInq [])
  refine ⟨_, runsTo_succ enq (runsTo_succ run (runsTo_succ consume (runsTo_zero _))), ?_, ?_, written, ?_, ?_, ?_, ?_, ?_⟩
  all_goals simp [advance, resumedWith, beginRun]

end Sys2Proof.Machine
end
